-- ==== Sys2Proof/Word.lean ====
section
/-! DEFINITION. The word types of the block, and the names of its registers and of its error causes. -/

namespace Sys2Proof

/-- A register value, a response or the D field of a command: 32 bits, bit 0 least significant (R7, R39).
A real-valued register holds the pattern of an IEEE 754 binary32 datum, its sign in bit 31 (R9). -/
abbrev Word := BitVec 32

/-- A command word of the one format C64 (R50). -/
abbrev Cmd := BitVec 64

/-- The A field of a command (a note or a register address), and a byte of a serialised word (R39, R51). -/
abbrev Byte := BitVec 8

/-- The causes an error can record, and `none` for "no error recorded" (R105).
Codes 6 to 15 are never recorded, so they have no constructor (93_implementation_defined.md 1.3). -/
inductive Cause where
  /-- 0: no error is recorded. -/
  | none
  /-- 1, CAUSE_OPCODE: the opcode is at or above 0x08. -/
  | opcode
  /-- 2, CAUSE_RESERVED: RSV, or an A or D that must be zero, is not. -/
  | reserved
  /-- 3, CAUSE_UNMAPPED: the address names no register. -/
  | unmapped
  /-- 4, CAUSE_READONLY: a write to a read-only register. -/
  | readonly
  /-- 5, CAUSE_VALUE: a value outside its domain. -/
  | value
  deriving DecidableEq, Repr

/-- The registers of the register map (R38). -/
inductive Reg where
  /-- STATUS (R18). -/
  | status
  /-- ERRINFO (R23). -/
  | errinfo
  /-- NOTE (R24). -/
  | note
  /-- PEAK_GAIN (R25). -/
  | peakGain
  /-- PAN (R26). -/
  | pan
  /-- POSITION (R27). -/
  | position
  /-- PHASE (R28). -/
  | phase
  /-- ENV_OUT (R29). -/
  | envOut
  /-- ACC_L (R30). -/
  | accL
  /-- ACC_R (R30). -/
  | accR
  /-- SAMPLE_RATE (R31). -/
  | sampleRate
  /-- ATTACK_TIME (R32). -/
  | attackTime
  /-- DECAY_TIME (R32). -/
  | decayTime
  /-- SUSTAIN_LEVEL (R32). -/
  | sustainLevel
  /-- RELEASE_TIME (R32). -/
  | releaseTime
  /-- DT (R85). -/
  | dt
  /-- ATTACK_RATE (R75). -/
  | attackRate
  /-- DECAY_RATE (R75). -/
  | decayRate
  /-- RELEASE_RATE (R75). -/
  | releaseRate
  /-- FREQ (R86). -/
  | freq
  /-- PHASE_INC (R87). -/
  | phaseInc
  deriving DecidableEq, Repr

end Sys2Proof
end

