-- ==== Sys2Proof/Syntax.lean ====
section
/-! DEFINITION. The eight commands of the opcode map (R53, spec/opcode_table.json), as decoded. -/

namespace Sys2Proof

/-- A command of the block, one constructor for each row of the opcode table. The operands are already assembled (R52): `note`
and `addr` are the A field, `gain` and `value` the D field, both read without extension or scaling. -/
inductive Instr where
  /-- NOP (R59). -/
  | nop
  /-- TICK: render one output frame (R92). -/
  | tick
  /-- KEYON: allocate the voice for a note (R60). -/
  | keyon (note : Byte) (gain : Word)
  /-- RESTRIKE: re-strike the voice in place (R61). -/
  | restrike (gain : Word)
  /-- KEYOFF: release the voice (R62). -/
  | keyoff
  /-- WRREG: write a register (R69). -/
  | wrreg (addr : Byte) (value : Word)
  /-- RDREG: read a register (R70). -/
  | rdreg (addr : Byte)
  /-- CLEAR: return the voice to its reset state, keeping the configuration (R63). -/
  | clear
  deriving DecidableEq, Repr

end Sys2Proof
end

