-- ==== Sys2Proof/WellFormed.lean ====
section
/-! DEFINITION. What a well-formed command is. A decoded command is well-formed by its types; the checks are those the assembler
makes on a source line, whose operands are plain numbers (R56, R57). -/

namespace Sys2Proof

/-- Every operand of a decoded command fits its field, because its type is the field: A has 8 bits and D has 32 (R51, R52).
An operand outside its DOMAIN (an unmapped address, a refused value) is no ill-formed command: it is an error when executed
(R54). So this check accepts every command; it stands here as the premise of the encoding claims (log 19). -/
def Instr.wellFormed : Instr → Bool
  | .nop => true
  | .tick => true
  | .keyon _ _ => true
  | .restrike _ => true
  | .keyoff => true
  | .wrreg _ _ => true
  | .rdreg _ => true
  | .clear => true

/-- A number as the assembler's source writes it (R56). -/
inductive Literal where
  /-- A decimal literal: `± digits / 10^scale`. -/
  | decimal (negative : Bool) (digits scale : Nat)
  /-- A hex integer, `0x…`. -/
  | hex (n : Nat)
  /-- A raw binary32 pattern, `f:0x…`. -/
  | pattern (n : Nat)
  deriving DecidableEq, Repr

/-- A register as the source writes it: a name of R38 or a hex address (R56). -/
inductive RegRef where
  | named (r : Reg)
  | address (a : Nat)
  deriving DecidableEq, Repr

/-- A source line of the assembler: the eight commands (R56) and the five pseudo-instructions (R57). -/
inductive Asm where
  | nop
  | tick
  | keyon (note gain : Literal)
  | restrike (gain : Literal)
  | keyoff
  | wrreg (r : RegRef) (value : Literal)
  | rdreg (r : RegRef)
  | clear
  /-- `CONFIG <sr>, <at>, <dt>, <sl>, <rt>` (R57). -/
  | config (sr at' dt sl rt : Literal)
  /-- `LOADACC <l>, <r>` (R57). -/
  | loadacc (l r : Literal)
  /-- `READACC` (R57). -/
  | readacc
  /-- `SETPAN <p>` (R57). -/
  | setpan (p : Literal)
  /-- `FRAME <l>, <r>` (R57). -/
  | frame (l r : Literal)
  deriving DecidableEq, Repr

/-- The literal is an integer, decimal or hex, that fits `width` bits (R56). -/
def Literal.isInteger (width : Nat) : Literal → Bool
  | .decimal negative n scale => !negative && decide (scale = 0) && decide (n < 2 ^ width)
  | .hex n => decide (n < 2 ^ width)
  | .pattern _ => false

/-- The literal is a decimal literal or a raw pattern of 32 bits (R56). -/
def Literal.isReal : Literal → Bool
  | .decimal _ _ _ => true
  | .hex _ => false
  | .pattern n => decide (n < 2 ^ 32)

/-- NOTE and SAMPLE_RATE take integer values, every other register a binary32 value (R56). -/
def Reg.isInteger : Reg → Bool
  | .note => true
  | .sampleRate => true
  | _ => false

/-- The registers whose hex address takes an integer value: NOTE at 0x02 and SAMPLE_RATE at 0x10 (R38, R56). -/
def RegRef.isInteger : RegRef → Bool
  | .named r => r.isInteger
  | .address a => decide (a = 0x02) || decide (a = 0x10)

/-- The register reference is a name or an address of 8 bits (R56). -/
def RegRef.wellFormed : RegRef → Bool
  | .named _ => true
  | .address a => decide (a < 2 ^ 8)

/-- "The assembler refuses a value outside the field's width" (R56). -/
def Asm.wellFormed : Asm → Bool
  | .nop => true
  | .tick => true
  | .keyon note gain => note.isInteger 8 && gain.isReal
  | .restrike gain => gain.isReal
  | .keyoff => true
  | .wrreg r value => r.wellFormed && (if r.isInteger then value.isInteger 32 else value.isReal)
  | .rdreg r => r.wellFormed
  | .clear => true
  | .config sr at' dt sl rt => sr.isInteger 32 && at'.isReal && dt.isReal && sl.isReal && rt.isReal
  | .loadacc l r => l.isReal && r.isReal
  | .readacc => true
  | .setpan p => p.isReal
  | .frame l r => l.isReal && r.isReal

end Sys2Proof
end

