-- ==== Sys2Proof/Decode.lean ====
section
/-! DEFINITION. Decoding a command word (R54, R55), the encoder written from the same tables (R51, R53), and the byte order in
which a host serialises words (R39). -/

namespace Sys2Proof

/-- What a word decodes to: a command, or `Illegal(cause)` of R54. -/
inductive Decoded where
  /-- A legal word: it matches a row of the opcode map. -/
  | legal (i : Instr)
  /-- An illegal word, with the cause R54 gives it (`Cause.opcode` or `Cause.reserved`). -/
  | illegal (c : Cause)
  deriving DecidableEq, Repr

/-- OPC, bits 63:56 (R51). -/
def opcField (w : Cmd) : Byte := w.extractLsb' 56 8

/-- A, bits 55:48 (R51). -/
def aField (w : Cmd) : Byte := w.extractLsb' 48 8

/-- RSV, bits 47:32 (R51). -/
def rsvField (w : Cmd) : BitVec 16 := w.extractLsb' 32 16

/-- D, bits 31:0 (R51). -/
def dField (w : Cmd) : Word := w.extractLsb' 0 32

/-- The case over a legal opcode, RSV already found zero (R54). -/
def decodeFields (opc a : Byte) (d : Word) : Decoded :=
  match opc.toNat with
  | 0 => if a = 0 ∧ d = 0 then .legal .nop else .illegal .reserved
  | 1 => if a = 0 ∧ d = 0 then .legal .tick else .illegal .reserved
  | 2 => .legal (.keyon a d)
  | 3 => if a = 0 then .legal (.restrike d) else .illegal .reserved
  | 4 => if a = 0 ∧ d = 0 then .legal .keyoff else .illegal .reserved
  | 5 => .legal (.wrreg a d)
  | 6 => if d = 0 then .legal (.rdreg a) else .illegal .reserved
  | 7 => if a = 0 ∧ d = 0 then .legal .clear else .illegal .reserved
  | _ => .illegal .opcode

/-- The decoder, total over all 2^64 words: the opcode is tested first, then RSV, then the fields that must be zero (R54,
R107). -/
def decode (w : Cmd) : Decoded :=
  if 8 ≤ (opcField w).toNat then .illegal .opcode
  else if rsvField w ≠ 0 then .illegal .reserved
  else decodeFields (opcField w) (aField w) (dField w)

/-- The opcode of each command (R53). -/
def opcodeOf : Instr → Byte
  | .nop => 0x00
  | .tick => 0x01
  | .keyon _ _ => 0x02
  | .restrike _ => 0x03
  | .keyoff => 0x04
  | .wrreg _ _ => 0x05
  | .rdreg _ => 0x06
  | .clear => 0x07

/-- The A field of each command's word: the note or the address, else zero (R51, R53). -/
def aOf : Instr → Byte
  | .nop => 0
  | .tick => 0
  | .keyon note _ => note
  | .restrike _ => 0
  | .keyoff => 0
  | .wrreg addr _ => addr
  | .rdreg addr => addr
  | .clear => 0

/-- The D field of each command's word: the gain or the value, else zero (R51, R53). -/
def dOf : Instr → Word
  | .nop => 0
  | .tick => 0
  | .keyon _ gain => gain
  | .restrike gain => gain
  | .keyoff => 0
  | .wrreg _ value => value
  | .rdreg _ => 0
  | .clear => 0

/-- A C64 word from its fields, RSV zero (R51). -/
def packC64 (opc a : Byte) (d : Word) : Cmd := opc ++ a ++ (0 : BitVec 16) ++ d

/-- The word of a command (R53). -/
def encode (i : Instr) : Cmd := packC64 (opcodeOf i) (aOf i) (dOf i)

/-- The match value of each row of the opcode map, as R53 prints it. -/
def matchOf : Instr → Cmd
  | .nop => 0x0000000000000000
  | .tick => 0x0100000000000000
  | .keyon _ _ => 0x0200000000000000
  | .restrike _ => 0x0300000000000000
  | .keyoff => 0x0400000000000000
  | .wrreg _ _ => 0x0500000000000000
  | .rdreg _ => 0x0600000000000000
  | .clear => 0x0700000000000000

/-- The mask of each row of the opcode map, as R53 prints it. -/
def maskOf : Instr → Cmd
  | .nop => 0xFFFFFFFFFFFFFFFF
  | .tick => 0xFFFFFFFFFFFFFFFF
  | .keyon _ _ => 0xFF00FFFF00000000
  | .restrike _ => 0xFFFFFFFF00000000
  | .keyoff => 0xFFFFFFFFFFFFFFFF
  | .wrreg _ _ => 0xFF00FFFF00000000
  | .rdreg _ => 0xFF00FFFFFFFFFFFF
  | .clear => 0xFFFFFFFFFFFFFFFF

/-- The bytes of a command as a host sends them, least significant first (R39). -/
def commandBytes (w : Cmd) : List Byte :=
  [w.extractLsb' 0 8, w.extractLsb' 8 8, w.extractLsb' 16 8, w.extractLsb' 24 8,
   w.extractLsb' 32 8, w.extractLsb' 40 8, w.extractLsb' 48 8, w.extractLsb' 56 8]

/-- The first command of a byte stream and the bytes after it; none while fewer than eight bytes have come (R39, R50). -/
def commandOfBytes : List Byte → Option (Cmd × List Byte)
  | b0 :: b1 :: b2 :: b3 :: b4 :: b5 :: b6 :: b7 :: rest =>
    some (b7 ++ b6 ++ b5 ++ b4 ++ b3 ++ b2 ++ b1 ++ b0, rest)
  | _ => none

/-- The bytes of a response, least significant first (R39). -/
def responseBytes (v : Word) : List Byte :=
  [v.extractLsb' 0 8, v.extractLsb' 8 8, v.extractLsb' 16 8, v.extractLsb' 24 8]

/-- The first command of a byte stream, decoded; none while fewer than eight bytes have come. -/
def decodeBytes (bs : List Byte) : Option Decoded :=
  (commandOfBytes bs).map (fun p => decode p.1)

/-- The command word whose low `nbits` bits are `w`'s and whose other bits are zero. -/
def tableWord (nbits w : Nat) : Cmd := BitVec.ofNat 64 (w % 2 ^ nbits)

/-- The instruction the decoder reads from the word `tableWord nbits w`; none where the word is illegal. -/
def decodeTableWord (nbits w : Nat) : Option Instr :=
  match decode (tableWord nbits w) with
  | .legal i => some i
  | .illegal _ => none

end Sys2Proof
end

