-- ==== Sys2Proof/Config.lean ====
section
/-! DEFINITION. The parameters the spec leaves OPEN (R6, R94) and the free values (R9), as constants with no body: no proof can
see what they are. The limits the spec puts on a parameter are imposed in Machine/Params.lean, never here. -/

namespace Sys2Proof

/-- The operations of the block that can produce a NaN, one name for each place an operation stands in the rules.
Two operations of one command draw their NaN patterns independently (R9; log 4). -/
inductive Site where
  /-- R85, `1.0 / u32_to_num(SAMPLE_RATE)`. -/
  | dt
  /-- R75, the quotient of ATTACK_RATE. -/
  | attackRate
  /-- R75, `1.0 - SUSTAIN_LEVEL`. -/
  | decaySpan
  /-- R75, the quotient of DECAY_RATE. -/
  | decayRate
  /-- R75, the quotient of RELEASE_RATE. -/
  | releaseRate
  /-- R76, the product `rate * dt` of the ramp. -/
  | rampStep
  /-- R76, the sum or difference of the ramp. -/
  | ramp
  /-- R79, the Decay target `s * peak`. -/
  | decayTarget
  /-- R83, the square of the position. -/
  | envelope
  /-- R88, `3.0 * φ`. -/
  | triplePhase
  /-- R88, `5.0 * φ`. -/
  | quintuplePhase
  /-- R88, `SIN(φ) * 3.0`. -/
  | harmonic1
  /-- R88, `SIN(3.0 * φ) * 2.0`. -/
  | harmonic3
  /-- R88, `SIN(5.0 * φ) * 1.0`. -/
  | harmonic5
  /-- R88, the first sum. -/
  | harmonicSum13
  /-- R88, the second sum. -/
  | harmonicSum135
  /-- R88, the division by 6.0. -/
  | oscillator
  /-- R92, `osc * e`. -/
  | sample
  /-- R90, `sqrt(PAN)`. -/
  | gainLeft
  /-- R90, `1.0 - PAN`. -/
  | panRight
  /-- R90, `sqrt(1.0 - PAN)`. -/
  | gainRight
  /-- R91, `smp * gl`. -/
  | sampleLeft
  /-- R91, `smp * gr`. -/
  | sampleRight
  /-- R91, the sum into ACC_L. -/
  | sumLeft
  /-- R91, the sum into ACC_R. -/
  | sumRight
  /-- R86, the division by 12.0. -/
  | noteRatio
  /-- R86, `440.0 * EXP2(x)`. -/
  | freq
  /-- R87, `TWO_PI * FREQ`. -/
  | radiansPerSecond
  /-- R87, the product with DT. -/
  | phaseInc
  /-- R89, `PHASE + PHASE_INC`. -/
  | phaseSum
  /-- R89, the remainder. -/
  | phaseWrap
  /-- R96 and R97: host arithmetic, which produces no NaN on its domain. -/
  | host
  deriving DecidableEq, Repr

namespace Config

/-- FREE VALUE. The sign, and the fraction field less one, of the NaN that operation `site` of command number `n` produces if
it produces one: a draw among all NaN patterns (R9, 93_implementation_defined.md 1.4; log 4). That it is not drawn anew for each
instance of a system is the model's DESIGN CHOICE (log 21). -/
opaque nanChoice : Nat → Site → Bool × Fin 8388607

/-- PARAMETER, OPEN. Any function of patterns; `Machine.SIN` imposes the named properties of R12 on it (R6, D4; log 1). -/
opaque sinRaw : Word → Word

/-- PARAMETER, OPEN. Any function of patterns; `Machine.EXP2` imposes the named properties of R12 on it (R6, D5; log 1). -/
opaque exp2Raw : Word → Word

/-- PARAMETER, OPEN. Any pattern; `Machine.EPSILON` imposes "positive, normal" on it (R6, D7; log 2). -/
opaque epsilonRaw : Word

/-- PARAMETER, OPEN. Any word; `Machine.RESET_SAMPLE_RATE` imposes "at least 1" on it (R6, D25; log 3). -/
opaque resetSampleRateRaw : Word

/-- PARAMETER, OPEN. Any pattern; `Machine.RESET_ATTACK_TIME` imposes "finite" on it (R6, D25; log 3). -/
opaque resetAttackTimeRaw : Word

/-- PARAMETER, OPEN. Any pattern; `Machine.RESET_DECAY_TIME` imposes "finite" on it (R6, D25; log 3). -/
opaque resetDecayTimeRaw : Word

/-- PARAMETER, OPEN. Any pattern; `Machine.RESET_SUSTAIN_LEVEL` imposes "in [0,1]" on it (R6, D25; log 3). -/
opaque resetSustainLevelRaw : Word

/-- PARAMETER, OPEN. Any pattern; `Machine.RESET_RELEASE_TIME` imposes "finite" on it (R6, D25; log 3). -/
opaque resetReleaseTimeRaw : Word

/-- PARAMETER of a system, OPEN: how many TVD instances it holds (R6, R47, D42). -/
opaque instances : Nat

/-- HOST PARAMETER, OPEN. Any pattern; `Machine.MIX_GAIN` imposes "finite and not negative" on it (R94, D33). -/
opaque mixGainRaw : Word

/-- HOST PARAMETER, OPEN: the retirement threshold in render invocations (R94, D34). -/
opaque hysteresis : Nat

/-- HOST PARAMETER, OPEN. Any pattern; `Machine.PAN_SEED0` imposes "in [0,1)" on it (R94, D36). -/
opaque panSeed0Raw : Word

/-- HOST PARAMETER, OPEN: how far SILENCE_TIMER_MAX lies above HYSTERESIS, less one (R94, D37). -/
opaque silenceTimerSlack : Nat

/-- HOST PARAMETER, OPEN: the capacity of the command queue (R94, D39). -/
opaque queueCapacity : Nat

/-- HOST FREE VALUE, drawn once per host: on a full queue, does the send report the failure (true) or drop silently (R103,
93_implementation_defined.md 1.1). -/
opaque queueReports : Bool

/-- HOST FREE VALUE, drawn per render invocation: does the non-blocking acquisition of the UI snapshot succeed (R104,
93_implementation_defined.md 1.1). -/
opaque uiAcquired : Nat → Bool

end Config
end Sys2Proof
end

