-- ==== Sys2Proof/Machine/Binary32.lean ====
section
/-! DEFINITION. IEEE 754 binary32 on 32-bit patterns: classes, comparisons (R10), the rounded operations (R9), the exact
remainder and the conversions (R11). Every operation computes exactly on integers and rounds once at the end. An operation that
can produce a NaN takes as its first argument the pattern that NaN has, which is a free value (R9, log 4). -/

namespace Sys2Proof.Machine.F32

/-- The sign of a pattern: bit 31 (R9). -/
def signBit (w : Word) : Bool := decide (2 ^ 31 ≤ w.toNat)

/-- Bits 30:0: for two data of one sign, the larger pattern is the larger magnitude. -/
def mag (w : Word) : Nat := w.toNat % 2 ^ 31

/-- The magnitude pattern of an infinity. -/
def infMag : Nat := 0x7F800000

/-- Neither an infinity nor a NaN (R10). -/
def isFinite (w : Word) : Bool := decide (mag w < infMag)

/-- An infinity of either sign. -/
def isInf (w : Word) : Bool := decide (mag w = infMag)

/-- A NaN: exponent field all ones, fraction field not zero (R9). -/
def isNaN (w : Word) : Bool := decide (infMag < mag w)

/-- A zero of either sign. -/
def isZero (w : Word) : Bool := decide (mag w = 0)

/-- The exponent field of a magnitude pattern. -/
def expField (m : Nat) : Nat := m / 2 ^ 23

/-- The value of a finite magnitude pattern in units of 2^-149, the least positive binary32 value: the significand shifted by its
exponent. Every finite binary32 value is a whole number of these units. -/
def scaledMag (m : Nat) : Nat :=
  if expField m = 0 then m % 2 ^ 23 else (2 ^ 23 + m % 2 ^ 23) * 2 ^ (expField m - 1)

/-- The value of a finite pattern in units of 2^-149. -/
def scaled (w : Word) : Int :=
  if signBit w then -(scaledMag (mag w) : Int) else (scaledMag (mag w) : Int)

/-- One, in units of 2^-149. -/
def unit : Nat := 2 ^ 149

/-- The pattern with a sign and a magnitude pattern. -/
def pack (s : Bool) (m : Nat) : Word := BitVec.ofNat 32 ((if s then 2 ^ 31 else 0) + m)

/-- The zero of a sign. -/
def zero (s : Bool) : Word := pack s 0

/-- The infinity of a sign. -/
def inf (s : Bool) : Word := pack s infMag

/-- The NaN with a sign and a fraction field of `payload + 1`; every NaN pattern is one of these (R9). -/
def nanPattern (c : Bool × Fin 8388607) : Word := pack c.1 (infMag + 1 + c.2.val)

/-- `n / d` rounded to the nearest integer, ties to even (R9). -/
def rneDiv (n d : Nat) : Nat :=
  let q := n / d
  let r := n % d
  if 2 * r < d then q else if d < 2 * r then q + 1 else q + q % 2

/-- How many low bits of a value of `q` units (rounded down) lie below a 24-bit significand. -/
def excess (q : Nat) : Nat := (Nat.log2 q + 1) - 24

/-- The magnitude pattern of a significand `m` of at most 2^24 with `k` bits below it dropped: the exponent field is `k`, plus
one where the significand has its leading bit, and past the largest finite value it is the infinity. -/
def packMag (k m : Nat) : Nat := min (k * 2 ^ 23 + m) infMag

/-- The magnitude pattern of the binary32 value nearest to `num / den` units of 2^-149, ties to even (R9). -/
def roundMag (num den : Nat) : Nat :=
  let k := excess (num / den)
  packMag k (rneDiv num (den * 2 ^ k))

/-- The binary32 value nearest to `± num / den` units, ties to even; a result of zero keeps the sign (R9). -/
def roundRatio (s : Bool) (num den : Nat) : Word := pack s (roundMag num den)

/-- `-a`: the sign bit inverted. -/
def neg (a : Word) : Word := pack (!signBit a) (mag a)

/-- `a + b` (R9). An exact zero sum is +0 unless both operands are negative zeros (IEEE 754; R91 (a)). -/
def add (nan a b : Word) : Word :=
  if isNaN a || isNaN b then nan
  else if isInf a then (if isInf b && signBit a != signBit b then nan else a)
  else if isInf b then b
  else
    let n := scaled a + scaled b
    if n = 0 then zero (signBit a && signBit b) else roundRatio (decide (n < 0)) n.natAbs 1

/-- `a - b` (R9). -/
def sub (nan a b : Word) : Word := add nan a (neg b)

/-- `a * b` (R9). -/
def mul (nan a b : Word) : Word :=
  let s := signBit a != signBit b
  if isNaN a || isNaN b then nan
  else if isInf a || isInf b then (if isZero a || isZero b then nan else inf s)
  else roundRatio s (scaledMag (mag a) * scaledMag (mag b)) unit

/-- `a / b` (R9). -/
def div (nan a b : Word) : Word :=
  let s := signBit a != signBit b
  if isNaN a || isNaN b then nan
  else if isInf a then (if isInf b then nan else inf s)
  else if isInf b then zero s
  else if isZero b then (if isZero a then nan else inf s)
  else roundRatio s (scaledMag (mag a) * unit) (scaledMag (mag b))

/-- The integer square root, one binary digit of the root for each unit of fuel: exact when `n < 4 ^ fuel`. -/
def floorSqrt : Nat → Nat → Nat
  | 0, _ => 0
  | fuel + 1, n =>
    let r := 2 * floorSqrt fuel (n / 4)
    if (r + 1) * (r + 1) ≤ n then r + 1 else r

/-- The integer square root of a number of at most 428 bits, which every radicand of the model is. -/
def root (n : Nat) : Nat := floorSqrt 214 n

/-- The square root of `n` divided by `2 ^ k`, rounded to the nearest integer, ties to even. -/
def rneSqrt (n k : Nat) : Nat :=
  let m := root (n / 4 ^ k)
  let t := (2 * m + 1) * (2 * m + 1) * 4 ^ k
  if 4 * n < t then m else if t < 4 * n then m + 1 else m + m % 2

/-- The magnitude pattern of the square root of a value of `u` units: the root of `u * 2^149` units, rounded (R9). -/
def sqrtMag (u : Nat) : Nat :=
  let k := excess (root (u * unit))
  packMag k (rneSqrt (u * unit) k)

/-- `sqrt(a)` (R9): the root of a zero is that zero, of a negative value a NaN. -/
def sqrt (nan a : Word) : Word :=
  if isNaN a then nan
  else if isZero a then a
  else if signBit a then nan
  else if isInf a then a
  else pack false (sqrtMag (scaledMag (mag a)))

/-- The exact remainder `x - y*trunc(x/y)` for finite `x` and finite nonzero `y`, `+0` when zero (R11; log 12). -/
def fmod (nan x y : Word) : Word :=
  if isFinite x && isFinite y && !isZero y then
    let r := scaledMag (mag x) % scaledMag (mag y)
    if r = 0 then zero false else roundRatio (signBit x) r 1
  else nan

/-- `u32_to_num(k)` (R11). -/
def ofNat (k : Nat) : Word := roundRatio false (k * unit) 1

/-- `int_to_num(k)` (R11). -/
def ofInt (k : Int) : Word := roundRatio (decide (k < 0)) (k.natAbs * unit) 1

/-- The order of the data that are not NaNs, both zeros at 0 (R10). -/
def key (w : Word) : Int := if signBit w then -(mag w : Int) else (mag w : Int)

/-- `a <= b`, false when either is a NaN (R10). -/
def le (a b : Word) : Bool := !isNaN a && !isNaN b && decide (key a ≤ key b)

/-- `a < b`, false when either is a NaN (R10). -/
def lt (a b : Word) : Bool := !isNaN a && !isNaN b && decide (key a < key b)

/-- `a >= b` (R10). -/
def ge (a b : Word) : Bool := le b a

/-- `min(a, b)`: `a` if `a <= b` else `b` (R10). -/
def min (a b : Word) : Word := if le a b then a else b

/-- `max(a, b)`: `a` if `a >= b` else `b` (R10). -/
def max (a b : Word) : Word := if ge a b then a else b

/-- `clamp(x, lo, hi)` is `min(max(x, lo), hi)` (R10). -/
def clamp (x lo hi : Word) : Word := min (max x lo) hi

/-- `+0` when `x` is −0, and `x` otherwise (R65). -/
def normz (x : Word) : Word := if x = 0x80000000 then 0 else x

/-- The value lies in [0, 1] (a negative zero included: it compares equal to +0, R10). -/
def inUnit (x : Word) : Bool := le 0 x && le x 0x3F800000

/-- A decimal literal `± n / 10^scale` converted to binary32, rounding to nearest even (R56). -/
def ofDecimal (s : Bool) (n scale : Nat) : Word := roundRatio s (n * unit) (10 ^ scale)

end Sys2Proof.Machine.F32
end

