-- ==== Sys2Proof/Machine/Params.lean ====
section
/-! DEFINITION. The parameters of the model (R6, R94) with exactly the limits the spec puts on them, and the constants it fixes.
Each OPEN parameter is an unknown constant of Config where that constant meets the limit, and some value that meets it where it
does not; so a parameter ranges over every value, or function, the spec allows, and nothing else is known of it. -/

namespace Sys2Proof.Machine

/-- `TWO_PI`, the binary32 value nearest 2π (R6, D6). -/
def TWO_PI : Word := 0x40C90FDB

/-- 1.0. -/
def one : Word := 0x3F800000

/-- `EPSILON`: positive and normal, which makes `1/EPSILON` finite (R6, D7; log 2). -/
def EPSILON : Word :=
  if 0x00800000 ≤ Config.epsilonRaw.toNat ∧ Config.epsilonRaw.toNat < 0x7F800000 then Config.epsilonRaw else 0x358637BD

/-- `SIN`, a total function with the named properties SIN_ZERO and SIN_FINITE and no other (R12; log 1). -/
def SIN (x : Word) : Word :=
  if x = 0 then 0
  else if F32.isFinite x then
    (if F32.le 0xBF800000 (Config.sinRaw x) && F32.le (Config.sinRaw x) one then Config.sinRaw x else 0)
  else Config.sinRaw x

/-- `EXP2`, a total function with the named properties EXP2_ZERO and EXP2_FINITE (finite and positive for finite `x` in
[−6, 16]) and no other (R12; log 1). -/
def EXP2 (x : Word) : Word :=
  if x = 0 then one
  else if F32.le 0xC0C00000 x && F32.le x 0x41800000 then
    (if F32.isFinite (Config.exp2Raw x) && F32.lt 0 (Config.exp2Raw x) then Config.exp2Raw x else one)
  else Config.exp2Raw x

/-- A parameter the spec limits to finite values. -/
def finiteParam (raw : Word) : Word := if F32.isFinite raw then raw else 0

/-- `RESET_SAMPLE_RATE`: at least 1 (R6; log 3). -/
def RESET_SAMPLE_RATE : Word := if Config.resetSampleRateRaw = 0 then 1 else Config.resetSampleRateRaw

/-- `RESET_ATTACK_TIME`: finite (R6; log 3). -/
def RESET_ATTACK_TIME : Word := finiteParam Config.resetAttackTimeRaw

/-- `RESET_DECAY_TIME`: finite (R6; log 3). -/
def RESET_DECAY_TIME : Word := finiteParam Config.resetDecayTimeRaw

/-- `RESET_SUSTAIN_LEVEL`: in [0, 1] (R6; log 3). -/
def RESET_SUSTAIN_LEVEL : Word := if F32.inUnit Config.resetSustainLevelRaw then Config.resetSustainLevelRaw else 0

/-- `RESET_RELEASE_TIME`: finite (R6; log 3). -/
def RESET_RELEASE_TIME : Word := finiteParam Config.resetReleaseTimeRaw

/-- `MIX_GAIN`: finite and not negative (R94, D33); not −0, since velocity 0 gives +0 (R96; log 15). -/
def MIX_GAIN : Word := if Config.mixGainRaw.toNat < 0x7F800000 then Config.mixGainRaw else one

/-- `PAN_SEED0`: in [0, 1) (R94, D36; log 15). -/
def PAN_SEED0 : Word := if Config.panSeed0Raw.toNat < 0x3F800000 then Config.panSeed0Raw else 0

/-- `HYSTERESIS`, a natural number (R94, D34). -/
def HYSTERESIS : Nat := Config.hysteresis

/-- `SILENCE_TIMER_MAX`, a natural number above HYSTERESIS (R94, D37). -/
def SILENCE_TIMER_MAX : Nat := Config.hysteresis + 1 + Config.silenceTimerSlack

/-- `QUEUE_CAPACITY` (R94, D39). -/
def QUEUE_CAPACITY : Nat := Config.queueCapacity

/-- `INSTANCES` (R6, D42). -/
def INSTANCES : Nat := Config.instances

end Sys2Proof.Machine
end

