-- ==== Sys2Proof/Machine/State.lean ====
section
/-! DEFINITION. The state of one TVD instance as plain data (R15), its reset value (R36, R116), and the reasons a step could
stop, of which this block has none (R106, R108). -/

namespace Sys2Proof.Machine

/-- The Gate's four states (R19). -/
inductive Gate where
  | low
  | risingEdge
  | high
  | fallingEdge
  deriving DecidableEq, Repr

/-- The ADSR's five states; the codes 5, 6 and 7 are never held (R20). -/
inductive Env where
  | silence
  | attack
  | decay
  | sustain
  | release
  deriving DecidableEq, Repr

/-- ERRINFO: the first error since reset or CLEAR. Bits 7:4 and 31:24 read as zero and are no state (R23). -/
structure ErrInfo where
  /-- CAUSE, bits 3:0. -/
  cause : Cause
  /-- OPC, bits 15:8: bits 63:56 of the offending command. -/
  opc : Byte
  /-- A, bits 23:16: bits 55:48 of the offending command. -/
  a : Byte
  deriving DecidableEq, Repr

/-- What the host can do to the block, in the order it does it (log 5). -/
inductive Input where
  /-- Present a command word on the command port (R16, R39, R44). -/
  | command (w : Cmd)
  /-- Assert reset, between two commands (R116). -/
  | reset
  /-- Take the oldest response not yet taken (R64). -/
  | take
  deriving DecidableEq, Repr

/-- Everything the spec gives one TVD instance (R15), and two fields of the model's own: `inputs` and `drawNo`. -/
structure State where
  /-- GATE (R19). -/
  gate : Gate
  /-- ENV (R20). -/
  env : Env
  /-- ACTIVE (R21). -/
  active : Bool
  /-- ERR_ILLEGAL (R22). -/
  errIllegal : Bool
  /-- ERR_VALUE (R22). -/
  errValue : Bool
  /-- ERRINFO (R23). -/
  errinfo : ErrInfo
  /-- NOTE, bits 7:0; bits 31:8 read as zero and are no state (R24). -/
  note : Byte
  /-- PEAK_GAIN (R25). -/
  peakGain : Word
  /-- PAN (R26). -/
  pan : Word
  /-- POSITION (R27). -/
  position : Word
  /-- PHASE (R28). -/
  phase : Word
  /-- ENV_OUT (R29). -/
  envOut : Word
  /-- ACC_L (R30). -/
  accL : Word
  /-- ACC_R (R30). -/
  accR : Word
  /-- SAMPLE_RATE (R31). -/
  sampleRate : Word
  /-- ATTACK_TIME (R32). -/
  attackTime : Word
  /-- DECAY_TIME (R32). -/
  decayTime : Word
  /-- SUSTAIN_LEVEL (R32). -/
  sustainLevel : Word
  /-- RELEASE_TIME (R32). -/
  releaseTime : Word
  /-- The response stream, oldest word first, less what the host has taken (R64). -/
  responses : List Word
  /-- The model's own: what the host has presented and the block has not yet taken up, in order (log 5). -/
  inputs : List Input
  /-- The model's own: the number of the command being executed, for its free NaN patterns (R9; log 4). -/
  drawNo : Nat
  deriving DecidableEq, Repr

/-- The machine right after reset (R36, R116). `inputs` empty and `drawNo` zero are DESIGN CHOICES of the model (logs 4, 5). -/
def State.reset : State where
  gate := .low
  env := .silence
  active := false
  errIllegal := false
  errValue := false
  errinfo := ⟨.none, 0, 0⟩
  note := 0
  peakGain := 0
  pan := 0x3F000000
  position := 0
  phase := 0
  envOut := 0
  accL := 0
  accR := 0
  sampleRate := RESET_SAMPLE_RATE
  attackTime := RESET_ATTACK_TIME
  decayTime := RESET_DECAY_TIME
  sustainLevel := RESET_SUSTAIN_LEVEL
  releaseTime := RESET_RELEASE_TIME
  responses := []
  inputs := []
  drawNo := 0

/-- The reasons a step stops with a fault: none. "The block does not stop, trap or wait" (R106, R108), so no step of this model
faults (log 17). -/
inductive Fault where
  deriving DecidableEq, Repr

/-- The reasons a step is refused. -/
inductive Refusal where
  /-- An instruction that has no meaning yet, by its mnemonic. Raised by no arm of `exec`: every command has its meaning. Safe:
  a refused step proves nothing. -/
  | notModelled (mnemonic : String)
  deriving DecidableEq, Repr

end Sys2Proof.Machine
end

