-- ==== Sys2Proof/Machine/Ops.lean ====
section
/-! DEFINITION. The shared operations over the state: the free NaN patterns, the response stream, raising an error (this block's
whole exception mechanism), and the three things the host can do to the block. -/

namespace Sys2Proof.Machine

/-- The pattern of the NaN that operation `site` of the command being executed produces, if it produces one: a free value among
all NaN patterns (R9; log 4). DESIGN CHOICE: an instance has no identifier (R113), so two instances of a system at one draw number draw
one pattern (logs 4, 21). -/
def State.nan (s : State) (site : Site) : Word := F32.nanPattern (Config.nanChoice s.drawNo site)

/-- `respond(v)`: append a word to the response stream (R8, R64). -/
def State.respond (s : State) (v : Word) : State := { s with responses := s.responses ++ [v] }

/-- No error is recorded: both sticky bits are 0 (R106). -/
def State.noError (s : State) : Bool := !s.errIllegal && !s.errValue

/-- `raise Error(cause, cmd)` (R106): ERRINFO records the cause and the OPC and A fields of the command when no error is recorded
yet, and one sticky bit is set. Nothing else changes, nothing is saved, nothing is vectored and there is no return (R108). -/
def State.raiseError (s : State) (c : Cause) (cmd : Cmd) : State :=
  { s with
    errinfo := if s.noError then ⟨c, opcField cmd, aField cmd⟩ else s.errinfo
    errValue := s.errValue || decide (c = .value)
    errIllegal := s.errIllegal || decide (c ≠ .value) }

/-- The block takes up the next input: the inputs after it remain, and the command has a number of its own (logs 4, 5). -/
def State.beginInput (s : State) (rest : List Input) : State := { s with inputs := rest, drawNo := s.drawNo + 1 }

/-- The host asserts reset between two commands: every piece of state takes its reset value and untaken responses are discarded
(R116). What the host presents afterwards is still to come, and the model's draw number goes on (logs 5, 8). -/
def State.resetInput (s : State) (rest : List Input) : State :=
  { State.reset with inputs := rest, drawNo := s.drawNo + 1 }

/-- The host takes the oldest response; nothing happens when there is none (R64; log 7). -/
def State.takeResponse (s : State) (rest : List Input) : State :=
  { s with inputs := rest, responses := s.responses.tail }

end Sys2Proof.Machine
end

