-- ==== Sys2Proof/Machine/Operands.lean ====
section
/-! DEFINITION. What the operands of a command mean: the register an address names (R38), which registers are read-only (R38,
R68), which values a register or a gain accepts and what is stored (R58, R65, R66). -/

namespace Sys2Proof.Machine

/-- The register map: the register an address names, none where the address is unmapped (R38). -/
def regOfAddr (a : Byte) : Option Reg :=
  match a.toNat with
  | 0x00 => some .status
  | 0x01 => some .errinfo
  | 0x02 => some .note
  | 0x03 => some .peakGain
  | 0x04 => some .pan
  | 0x05 => some .position
  | 0x06 => some .phase
  | 0x07 => some .envOut
  | 0x08 => some .accL
  | 0x09 => some .accR
  | 0x10 => some .sampleRate
  | 0x11 => some .attackTime
  | 0x12 => some .decayTime
  | 0x13 => some .sustainLevel
  | 0x14 => some .releaseTime
  | 0x18 => some .dt
  | 0x19 => some .attackRate
  | 0x1A => some .decayRate
  | 0x1B => some .releaseRate
  | 0x1C => some .freq
  | 0x1D => some .phaseInc
  | _ => none

/-- The single address of each register (R17, R38). -/
def addrOfReg : Reg → Byte
  | .status => 0x00
  | .errinfo => 0x01
  | .note => 0x02
  | .peakGain => 0x03
  | .pan => 0x04
  | .position => 0x05
  | .phase => 0x06
  | .envOut => 0x07
  | .accL => 0x08
  | .accR => 0x09
  | .sampleRate => 0x10
  | .attackTime => 0x11
  | .decayTime => 0x12
  | .sustainLevel => 0x13
  | .releaseTime => 0x14
  | .dt => 0x18
  | .attackRate => 0x19
  | .decayRate => 0x1A
  | .releaseRate => 0x1B
  | .freq => 0x1C
  | .phaseInc => 0x1D

/-- The read-only registers (R38, R68). -/
def regReadOnly : Reg → Bool
  | .status => true
  | .errinfo => true
  | .note => false
  | .peakGain => false
  | .pan => false
  | .position => true
  | .phase => true
  | .envOut => true
  | .accL => false
  | .accR => false
  | .sampleRate => false
  | .attackTime => false
  | .decayTime => false
  | .sustainLevel => false
  | .releaseTime => false
  | .dt => true
  | .attackRate => true
  | .decayRate => true
  | .releaseRate => true
  | .freq => true
  | .phaseInc => true

/-- The gain check of KEYON and RESTRIKE: finite and not below zero; −0 passes (R58). -/
def gainAccepted (g : Word) : Bool := F32.isFinite g && F32.ge g 0

/-- The value domain of each writable register (R65). A read-only register accepts nothing (R68). -/
def regAccepts (r : Reg) (v : Word) : Bool :=
  match r with
  | .note => decide (v.extractLsb' 8 24 = 0)
  | .peakGain => gainAccepted v
  | .pan => F32.isFinite v
  | .accL => F32.isFinite v
  | .accR => F32.isFinite v
  | .sampleRate => decide (v ≠ 0)
  | .attackTime => F32.isFinite v
  | .decayTime => F32.isFinite v
  | .releaseTime => F32.isFinite v
  | .sustainLevel => F32.isFinite v && F32.ge v 0 && F32.le v one
  | .status => false
  | .errinfo => false
  | .position => false
  | .phase => false
  | .envOut => false
  | .dt => false
  | .attackRate => false
  | .decayRate => false
  | .releaseRate => false
  | .freq => false
  | .phaseInc => false

/-- What an accepted PAN write stores: `normz(clamp(x, 0.0, 1.0))` (R66). -/
def panStored (v : Word) : Word := F32.normz (F32.clamp v 0 one)

/-- The register holds the accepted value, in the form R65 and R66 store it. A read-only register is never written. -/
def State.writeReg (s : State) (r : Reg) (v : Word) : State :=
  match r with
  | .note => { s with note := v.setWidth 8 }
  | .peakGain => { s with peakGain := F32.normz v }
  | .pan => { s with pan := panStored v }
  | .accL => { s with accL := v }
  | .accR => { s with accR := v }
  | .sampleRate => { s with sampleRate := v }
  | .attackTime => { s with attackTime := F32.normz v }
  | .decayTime => { s with decayTime := F32.normz v }
  | .sustainLevel => { s with sustainLevel := F32.normz v }
  | .releaseTime => { s with releaseTime := F32.normz v }
  | .status => s
  | .errinfo => s
  | .position => s
  | .phase => s
  | .envOut => s
  | .dt => s
  | .attackRate => s
  | .decayRate => s
  | .releaseRate => s
  | .freq => s
  | .phaseInc => s

end Sys2Proof.Machine
end

