-- ==== Sys2Proof/Machine/Control.lean ====
section
/-! DEFINITION. The voice control commands NOP, KEYON, RESTRIKE, KEYOFF and CLEAR (R59 to R63). -/

namespace Sys2Proof.Machine

/-- NOP: nothing (R59). -/
def execNop (s : State) : Host.Outcome State Fault Refusal := .next s

/-- KEYON: allocate the voice for a note with a peak gain, or record CAUSE_VALUE for a gain out of domain (R58, R60). -/
def execKeyon (note : Byte) (gain : Word) (s : State) : Host.Outcome State Fault Refusal :=
  if gainAccepted gain then
    .next { s with
      note := note
      peakGain := F32.normz gain
      active := true
      gate := .low
      env := .silence
      position := 0
      phase := 0
      envOut := 0 }
  else .next (s.raiseError .value (encode (.keyon note gain)))

/-- RESTRIKE: a new peak gain and ACTIVE, in place, or CAUSE_VALUE for a gain out of domain (R58, R61). -/
def execRestrike (gain : Word) (s : State) : Host.Outcome State Fault Refusal :=
  if gainAccepted gain then .next { s with peakGain := F32.normz gain, active := true }
  else .next (s.raiseError .value (encode (.restrike gain)))

/-- KEYOFF: ACTIVE := 0; the envelope follows at the next TICK (R62). -/
def execKeyoff (s : State) : Host.Outcome State Fault Refusal := .next { s with active := false }

/-- CLEAR: the voice, accumulator and error state back to their reset values; the configuration registers and the response stream
stay (R63). -/
def execClear (s : State) : Host.Outcome State Fault Refusal :=
  .next { s with
    gate := .low
    env := .silence
    active := false
    errIllegal := false
    errValue := false
    errinfo := ⟨.none, 0, 0⟩
    note := 0
    peakGain := 0
    pan := 0x3F000000
    position := 0
    phase := 0
    envOut := 0
    accL := 0
    accR := 0 }

end Sys2Proof.Machine
end

