-- ==== Sys2Proof/Machine/Derived.lean ====
section
/-! DEFINITION. The derived registers: functions of the state, recomputed whenever they are read or used (R33). -/

namespace Sys2Proof.Machine

/-- `DT = 1.0 / u32_to_num(SAMPLE_RATE)` (R85). -/
def State.dt (s : State) : Word := F32.div (s.nan .dt) one (F32.ofNat s.sampleRate.toNat)

/-- `ATTACK_RATE = 1.0 / max(ATTACK_TIME, EPSILON)` (R75). -/
def State.attackRate (s : State) : Word := F32.div (s.nan .attackRate) one (F32.max s.attackTime EPSILON)

/-- `DECAY_RATE = (1.0 - SUSTAIN_LEVEL) / max(DECAY_TIME, EPSILON)` (R75). -/
def State.decayRate (s : State) : Word :=
  F32.div (s.nan .decayRate) (F32.sub (s.nan .decaySpan) one s.sustainLevel) (F32.max s.decayTime EPSILON)

/-- `RELEASE_RATE = SUSTAIN_LEVEL / max(RELEASE_TIME, EPSILON)` (R75). -/
def State.releaseRate (s : State) : Word :=
  F32.div (s.nan .releaseRate) s.sustainLevel (F32.max s.releaseTime EPSILON)

/-- `x = int_to_num(NOTE - 69) / 12.0` (R86). -/
def State.noteRatio (s : State) : Word :=
  F32.div (s.nan .noteRatio) (F32.ofInt ((s.note.toNat : Int) - 69)) 0x41400000

/-- `FREQ = 440.0 * EXP2(x)` (R86). -/
def State.freq (s : State) : Word := F32.mul (s.nan .freq) 0x43DC0000 (EXP2 s.noteRatio)

/-- `PHASE_INC = (TWO_PI * FREQ) * DT` (R87). -/
def State.phaseInc (s : State) : Word :=
  F32.mul (s.nan .phaseInc) (F32.mul (s.nan .radiansPerSecond) TWO_PI s.freq) s.dt

end Sys2Proof.Machine
end

