-- ==== Sys2Proof/Machine/Flags.lean ====
section
/-! DEFINITION. The codes of the status fields and the STATUS and ERRINFO words a read shows (R18, R19, R20, R23). -/

namespace Sys2Proof.Machine

/-- The code of a Gate state in STATUS bits 1:0 (R19). -/
def Gate.code : Gate → BitVec 2
  | .low => 0
  | .risingEdge => 1
  | .high => 2
  | .fallingEdge => 3

/-- The code of an ADSR state in STATUS bits 4:2 (R20). -/
def Env.code : Env → BitVec 3
  | .silence => 0
  | .attack => 1
  | .decay => 2
  | .sustain => 3
  | .release => 4

/-- The cause code in ERRINFO bits 3:0 (R105). -/
def causeCode : Cause → BitVec 4
  | .none => 0
  | .opcode => 1
  | .reserved => 2
  | .unmapped => 3
  | .readonly => 4
  | .value => 5

/-- IN_SILENCE: 1 exactly when ENV = Silence, a copy and no state of its own (R18). -/
def State.inSilence (s : State) : Bool := decide (s.env = .silence)

/-- The STATUS word `{0[22:0], ERR_VALUE, ERR_ILLEGAL, IN_SILENCE, ACTIVE, ENV[2:0], GATE[1:0]}` (R18, R70). -/
def State.statusWord (s : State) : Word :=
  (0 : BitVec 23) ++ BitVec.ofBool s.errValue ++ BitVec.ofBool s.errIllegal ++ BitVec.ofBool s.inSilence ++
    BitVec.ofBool s.active ++ s.env.code ++ s.gate.code

/-- The ERRINFO word `{0[7:0], A, OPC, 0[3:0], CAUSE}` (R23, R106). -/
def State.errinfoWord (s : State) : Word :=
  (0 : BitVec 8) ++ s.errinfo.a ++ s.errinfo.opc ++ (0 : BitVec 4) ++ causeCode s.errinfo.cause

/-- The NOTE word: the note in bits 7:0, bits 31:8 zero (R24). -/
def State.noteWord (s : State) : Word := s.note.zeroExtend 32

end Sys2Proof.Machine
end

