-- ==== Sys2Proof/Machine/RegisterAccess.lean ====
section
/-! DEFINITION. The register access commands WRREG and RDREG (R69, R70). -/

namespace Sys2Proof.Machine

/-- `readval`: the 32 bits a read of a register shows (R70). No read changes the state (R41). -/
def State.readReg (s : State) : Reg → Word
  | .status => s.statusWord
  | .errinfo => s.errinfoWord
  | .note => s.noteWord
  | .peakGain => s.peakGain
  | .pan => s.pan
  | .position => s.position
  | .phase => s.phase
  | .envOut => s.envOut
  | .accL => s.accL
  | .accR => s.accR
  | .sampleRate => s.sampleRate
  | .attackTime => s.attackTime
  | .decayTime => s.decayTime
  | .sustainLevel => s.sustainLevel
  | .releaseTime => s.releaseTime
  | .dt => s.dt
  | .attackRate => s.attackRate
  | .decayRate => s.decayRate
  | .releaseRate => s.releaseRate
  | .freq => s.freq
  | .phaseInc => s.phaseInc

/-- WRREG: an unmapped address, a read-only register and a value outside the domain record an error, tested in that order; else
the register takes the value (R67, R68, R69, R107). -/
def execWrreg (addr : Byte) (value : Word) (s : State) : Host.Outcome State Fault Refusal :=
  match regOfAddr addr with
  | none => .next (s.raiseError .unmapped (encode (.wrreg addr value)))
  | some r =>
    if regReadOnly r then .next (s.raiseError .readonly (encode (.wrreg addr value)))
    else if regAccepts r value then .next (s.writeReg r value)
    else .next (s.raiseError .value (encode (.wrreg addr value)))

/-- RDREG: respond with the register; an unmapped address records an error and still responds 0 (R67, R70). -/
def execRdreg (addr : Byte) (s : State) : Host.Outcome State Fault Refusal :=
  match regOfAddr addr with
  | none => .next ((s.raiseError .unmapped (encode (.rdreg addr))).respond 0)
  | some r => .next (s.respond (s.readReg r))

end Sys2Proof.Machine
end

