-- ==== Sys2Proof/Machine/GateDetector.lean ====
section
/-! DEFINITION. The Gate, the first stage of TICK: an edge detector over the held flag (R71 to R74). -/

namespace Sys2Proof.Machine

/-- The last input was 0 (R71). -/
def lowish : Gate → Bool
  | .low => true
  | .risingEdge => false
  | .high => false
  | .fallingEdge => true

/-- The last input was 1: the complement of `lowish` (R71). -/
def highish (g : Gate) : Bool := !lowish g

/-- The Gate's next state; the ADSR of the same TICK is driven by this new state (R72, R74). -/
def gateNext (g : Gate) (held : Bool) : Gate :=
  if held then (if lowish g then .risingEdge else .high)
  else (if highish g then .fallingEdge else .low)

end Sys2Proof.Machine
end

