-- ==== Sys2Proof/Machine/Adsr.lean ====
section
/-! DEFINITION. The ADSR envelope, the second stage of TICK (R76 to R83). In each branch the ramp comes first, then the edge test,
then the threshold test (R76). -/

namespace Sys2Proof.Machine

/-- Silence: the position is held at +0; a rising edge goes to Attack, with no ramp in this step (R77). -/
def silenceStep (g : Gate) : Env × Word :=
  if g = .risingEdge then (.attack, 0) else (.silence, 0)

/-- Attack: `pos + ATTACK_RATE * DT`; at the peak gain it is cut to 1.0 at most and Decay follows. The Gate is not read (R78). -/
def attackStep (s : State) (pos : Word) : Env × Word :=
  let p := F32.add (s.nan .ramp) pos (F32.mul (s.nan .rampStep) s.attackRate s.dt)
  if F32.ge p s.peakGain then (.decay, F32.min p one) else (.attack, p)

/-- The level Decay falls to: `SUSTAIN_LEVEL * PEAK_GAIN` (R79). -/
def State.decayTarget (s : State) : Word := F32.mul (s.nan .decayTarget) s.sustainLevel s.peakGain

/-- Decay: `pos - DECAY_RATE * DT`; a rising edge goes to Attack from there, else the target ends it (R79). -/
def decayStep (s : State) (pos : Word) (g : Gate) : Env × Word :=
  let p := F32.sub (s.nan .ramp) pos (F32.mul (s.nan .rampStep) s.decayRate s.dt)
  if g = .risingEdge then (.attack, p)
  else if F32.le p s.decayTarget then (.sustain, s.decayTarget) else (.decay, p)

/-- Sustain: the position holds; a lowish Gate goes to Release, a rising edge to Attack (R80). -/
def sustainStep (pos : Word) (g : Gate) : Env × Word :=
  if lowish g then (.release, pos) else if g = .risingEdge then (.attack, pos) else (.sustain, pos)

/-- Release: `pos - RELEASE_RATE * DT`; a rising edge goes to Attack from there, even below zero, else zero ends it (R81). -/
def releaseStep (s : State) (pos : Word) (g : Gate) : Env × Word :=
  let p := F32.sub (s.nan .ramp) pos (F32.mul (s.nan .rampStep) s.releaseRate s.dt)
  if g = .risingEdge then (.attack, p)
  else if F32.le p 0 then (.silence, 0) else (.release, p)

/-- `adsrStep(env, pos, g)`, once per TICK: the new ENV and POSITION (R76). -/
def adsrStep (s : State) (env : Env) (pos : Word) (g : Gate) : Env × Word :=
  match env with
  | .silence => silenceStep g
  | .attack => attackStep s pos
  | .decay => decayStep s pos g
  | .sustain => sustainStep pos g
  | .release => releaseStep s pos g

/-- The envelope sample: the square of the position after the step, not the position itself (R83). -/
def envelopeSample (s : State) (pos : Word) : Word := F32.mul (s.nan .envelope) pos pos

end Sys2Proof.Machine
end

