-- ==== Sys2Proof/Machine/Oscillator.lean ====
section
/-! DEFINITION. The oscillator and the phase accumulator, stages of TICK (R88, R89). -/

namespace Sys2Proof.Machine

/-- `osc(φ) = ((((SIN(φ)*3.0) + (SIN(3.0*φ)*2.0)) + (SIN(5.0*φ)*1.0)) / 6.0)` (R88). -/
def osc (s : State) (φ : Word) : Word :=
  let h1 := F32.mul (s.nan .harmonic1) (SIN φ) 0x40400000
  let h3 := F32.mul (s.nan .harmonic3) (SIN (F32.mul (s.nan .triplePhase) 0x40400000 φ)) 0x40000000
  let h5 := F32.mul (s.nan .harmonic5) (SIN (F32.mul (s.nan .quintuplePhase) 0x40A00000 φ)) one
  F32.div (s.nan .oscillator) (F32.add (s.nan .harmonicSum135) (F32.add (s.nan .harmonicSum13) h1 h3) h5) 0x40C00000

/-- `fmod(PHASE + PHASE_INC, TWO_PI)` (R89): the sum is rounded, the remainder exact. -/
def phaseNext (s : State) : Word :=
  F32.fmod (s.nan .phaseWrap) (F32.add (s.nan .phaseSum) s.phase s.phaseInc) TWO_PI

end Sys2Proof.Machine
end

