-- ==== Sys2Proof/Machine/Tick.lean ====
section
/-! DEFINITION. The pan mixer and TICK (R90 to R93). -/

namespace Sys2Proof.Machine

/-- The left gain `sqrt(PAN)` (R90). -/
def gainLeft (s : State) : Word := F32.sqrt (s.nan .gainLeft) s.pan

/-- The right gain `sqrt(1.0 - PAN)` (R90). -/
def gainRight (s : State) : Word := F32.sqrt (s.nan .gainRight) (F32.sub (s.nan .panRight) one s.pan)

/-- `ACC_L + smp * gl` (R91). -/
def accumulateLeft (s : State) (smp : Word) : Word :=
  F32.add (s.nan .sumLeft) s.accL (F32.mul (s.nan .sampleLeft) smp (gainLeft s))

/-- `ACC_R + smp * gr` (R91). -/
def accumulateRight (s : State) (smp : Word) : Word :=
  F32.add (s.nan .sumRight) s.accR (F32.mul (s.nan .sampleRight) smp (gainRight s))

/-- TICK: render one output frame. Every read sees the state before the TICK, and the Gate is updated before the ADSR reads it
(R92, R93, R13). -/
def execTick (s : State) : Host.Outcome State Fault Refusal :=
  let g := gateNext s.gate s.active
  let r := adsrStep s s.env s.position g
  let e := envelopeSample s r.2
  let smp := F32.mul (s.nan .sample) (osc s s.phase) e
  .next { s with
    gate := g
    env := r.1
    position := r.2
    envOut := e
    accL := accumulateLeft s smp
    accR := accumulateRight s smp
    phase := phaseNext s }

end Sys2Proof.Machine
end

