-- ==== Sys2Proof/Machine/Dispatch.lean ====
section
/-! DEFINITION. One arm for each command. -/

namespace Sys2Proof.Machine

/-- The meaning of each command. -/
def exec (i : Instr) (s : State) : Host.Outcome State Fault Refusal :=
  match i with
  | .nop => Sys2Proof.Machine.execNop s
  | .tick => Sys2Proof.Machine.execTick s
  | .keyon note gain => Sys2Proof.Machine.execKeyon note gain s
  | .restrike gain => Sys2Proof.Machine.execRestrike gain s
  | .keyoff => Sys2Proof.Machine.execKeyoff s
  | .wrreg addr value => Sys2Proof.Machine.execWrreg addr value s
  | .rdreg addr => Sys2Proof.Machine.execRdreg addr s
  | .clear => Sys2Proof.Machine.execClear s

end Sys2Proof.Machine
end

