-- ==== Sys2Proof/Machine/Command.lean ====
section
/-! DEFINITION. What the block does with one input of the host: a command word, reset, or the taking of a response. -/

namespace Sys2Proof.Machine

/-- A presented word: a legal one is executed; an illegal one changes only the error state (R54, R55). -/
def runCommand (w : Cmd) (s : State) : Host.Outcome State Fault Refusal :=
  match decode w with
  | .legal i => exec i s
  | .illegal c => .next (s.raiseError c w)

/-- One input of the host, the inputs after it remaining (R44, R64, R116). -/
def runInput (x : Input) (rest : List Input) (s : State) : Host.Outcome State Fault Refusal :=
  match x with
  | .command w => runCommand w (s.beginInput rest)
  | .reset => .next (s.resetInput rest)
  | .take => .next (s.takeResponse rest)

/-- `s` with a command word presented before everything else. -/
def State.present (s : State) (w : Cmd) : State := { s with inputs := .command w :: s.inputs }

end Sys2Proof.Machine
end

