-- ==== Sys2Proof/Machine/Step.lean ====
section
/-! DEFINITION. One step of the block. -/

namespace Sys2Proof.Machine

/-- One step: the block takes up the oldest input of the host; while the host presents nothing it holds all its state (R44,
R115). -/
def step (s : State) : Host.Outcome State Fault Refusal :=
  match s.inputs with
  | [] => .next s
  | x :: rest => runInput x rest s

/-- `s` with the instruction word whose low `nbits` bits are `w`'s presented on the command port, so that the next step executes
it (log 5). -/
def State.withFetchWord (s : State) (nbits w : Nat) : State := s.present (tableWord nbits w)

end Sys2Proof.Machine
end

