-- ==== Sys2Proof/Machine/HostContract.lean ====
section
/-! DEFINITION. The host contract (R94 to R104): what the surrounding software does with a system of TVD instances (R47). It binds
the host, not the block; it is a layer over `step` and changes nothing in it (log 15). -/

namespace Sys2Proof.Machine

/-! ### Host arithmetic (binary32, D35) -/

/-- The NaN of a host operation; on the domains of R96 and R97 none is produced. -/
def hostNaN : Word := F32.nanPattern (Config.nanChoice 0 .host)

/-- `velocityCurve(v)` (R96): the clamp is on integers. -/
def velocityCurve (v : Int) : Word :=
  let r := F32.div hostNaN (F32.ofInt (Min.min (Max.max v 0) 127)) 0x42FE0000
  F32.mul hostNaN (F32.mul hostNaN r r) MIX_GAIN

/-- `panFromSeed(seed)` (R97); the literal 1.2 is 0x3F99999A. -/
def panFromSeed (seed : Word) : Word :=
  let raw := F32.mul hostNaN (F32.sub hostNaN seed 0x3F000000) 0x3F99999A
  F32.clamp (F32.add hostNaN (F32.mul hostNaN raw 0x3F000000) 0x3F000000) 0 one

/-- The seed increment `2503.0 / 443.0` (R97). -/
def seedIncrement : Word := F32.div hostNaN (F32.ofNat 2503) (F32.ofNat 443)

/-- `nextSeed(seed)` (R97). -/
def nextSeed (seed : Word) : Word := F32.fmod hostNaN (F32.add hostNaN seed seedIncrement) one

/-! ### The system -/

/-- A command of the host's queue (R102, R103). -/
inductive HostCommand where
  /-- NoteOn, run as hostNoteOn (R98). -/
  | noteOn (note : Byte) (velocity : Int)
  /-- NoteOff, run as hostNoteOff (R99). -/
  | noteOff (note : Byte)
  /-- SetFeedbackSink. R102 says only "set the UI flag". DESIGN CHOICE: it carries the flag's new value, so that it can turn the
  snapshot off as well as on (log 22). -/
  | setFeedbackSink (on : Bool)
  deriving DecidableEq, Repr

/-- A live voice: its instance and its silence-timer (R95, R100). -/
structure LiveVoice where
  inst : Nat
  timer : Nat
  deriving DecidableEq, Repr

/-- The host's state (R95). `renders` counts render invocations and is the model's own: it numbers the draws of `uiAcquired`. -/
structure HostState where
  /-- The live voices, in allocation order. -/
  live : List LiveVoice
  /-- The pool of free instances. -/
  free : List Nat
  seed : Word
  uiOn : Bool
  queue : List HostCommand
  renders : Nat
  deriving DecidableEq, Repr

/-- A system: the independent instances, by the host's handles 0, 1, …, and the host (R47, R113). -/
structure System where
  insts : List State
  host : HostState
  deriving DecidableEq, Repr

/-- Why a host operation has no move (93_implementation_defined.md 1.1). -/
inductive HostRefusal where
  /-- hostNoteOn needs a free instance and there is none; the source gives no policy (D42). -/
  | noFreeInstance
  /-- A handle that names no instance of the system. -/
  | noSuchInstance
  deriving DecidableEq, Repr

/-- The system at the start: every instance at reset (R113), the seed PAN_SEED0 (R94) and the UI flag off (R95). DESIGN CHOICE: no
voice is live, every instance is free and the command queue is empty; R94 and R95 do not say (log 23). -/
def System.reset : System where
  insts := List.replicate INSTANCES State.reset
  host := ⟨[], List.range INSTANCES, PAN_SEED0, false, [], 0⟩

/-- One instance executes one command word; the block never stops, so the two other outcomes do not occur. -/
def State.executes (s : State) (w : Cmd) : State :=
  match step (s.present w) with
  | .next t => t
  | .fault _ => s
  | .refused _ => s

/-- The host issues a command to instance `k`; no other instance changes (R47). -/
def System.issue (y : System) (k : Nat) (i : Instr) : Except HostRefusal System :=
  match y.insts[k]? with
  | none => .error .noSuchInstance
  | some s => .ok { y with insts := y.insts.set k (s.executes (encode i)) }

/-- The host reads a register of instance `k` by RDREG and takes every response up to that one, in order (R64, R104). -/
def System.read (y : System) (k : Nat) (r : Reg) : Except HostRefusal (Word × System) :=
  match y.insts[k]? with
  | none => .error .noSuchInstance
  | some s =>
    let t := s.executes (encode (.rdreg (addrOfReg r)))
    .ok (t.responses.getLastD 0, { y with insts := y.insts.set k { t with responses := [] } })

/-- Instance `k` holds NOTE = `n` (R98, R99). -/
def System.holdsNote (y : System) (n : Byte) (k : Nat) : Bool :=
  match y.insts[k]? with
  | none => false
  | some s => decide (s.note = n)

/-- The first live voice, in allocation order, whose instance holds NOTE = `n` (R98, R99). -/
def System.findVoice (y : System) (n : Byte) : Option LiveVoice := y.host.live.find? (fun v => y.holdsNote n v.inst)

/-- `timer[k] := t`. -/
def setTimer (k t : Nat) : List LiveVoice → List LiveVoice
  | [] => []
  | v :: rest => (if v.inst = k then { v with timer := t } else v) :: setTimer k t rest

/-! ### Voice-bank operations -/

/-- Host noteOn: re-strike in place, or allocate, pan and key on a free instance (R98). -/
def hostNoteOn (y : System) (n : Byte) (v : Int) : Except HostRefusal System :=
  let gain := velocityCurve v
  match y.findVoice n with
  | some voice => do
    let y ← y.issue voice.inst (.restrike gain)
    .ok { y with host := { y.host with live := setTimer voice.inst 0 y.host.live } }
  | none =>
    match y.host.free with
    | [] => .error .noFreeInstance
    | k :: free => do
      let p := panFromSeed y.host.seed
      let y ← y.issue k (.wrreg (addrOfReg .pan) p)
      let y ← y.issue k (.keyon n gain)
      .ok { y with host := { y.host with free := free, seed := nextSeed y.host.seed, live := y.host.live ++ [⟨k, 0⟩] } }

/-- Host noteOff: release the first live voice of the note; otherwise nothing (R99). -/
def hostNoteOff (y : System) (n : Byte) : Except HostRefusal System :=
  match y.findVoice n with
  | some voice => y.issue voice.inst .keyoff
  | none => .ok y

/-- One command of the queue (R102). -/
def runHostCommand (y : System) : HostCommand → Except HostRefusal System
  | .noteOn n v => hostNoteOn y n v
  | .noteOff n => hostNoteOff y n
  | .setFeedbackSink on => .ok { y with host := { y.host with uiOn := on } }

/-- Drain a queue in send order (R102). -/
def drain : List HostCommand → System → Except HostRefusal System
  | [], y => .ok y
  | c :: rest, y => runHostCommand y c >>= drain rest

/-- Send to the bounded queue: never blocks, never grows it past its capacity; on a full queue the event is dropped, and the second
part says whether the failure is reported (R103). -/
def sendCommand (y : System) (c : HostCommand) : System × Bool :=
  if y.host.queue.length < QUEUE_CAPACITY then
    ({ y with host := { y.host with queue := y.host.queue ++ [c] } }, false)
  else (y, Config.queueReports)

/-! ### Rendering -/

/-- The IN_SILENCE bit of a STATUS word (R18). -/
def statusInSilence (w : Word) : Bool := w.getLsbD 6

/-- One frame of one voice: load the running sums, TICK, read the sums back (R102). -/
def renderFrame (y : System) (k : Nat) (l r : Word) : Except HostRefusal (Word × Word × System) := do
  let y ← y.issue k (.wrreg (addrOfReg .accL) l)
  let y ← y.issue k (.wrreg (addrOfReg .accR) r)
  let y ← y.issue k .tick
  let (l', y) ← y.read k .accL
  let (r', y) ← y.read k .accR
  .ok (l', r', y)

/-- All frames of one voice over the buffer; the last sample of an odd buffer is not rendered (R102, D50). -/
def renderFrames (k : Nat) : List Word → System → Except HostRefusal (List Word × System)
  | l :: r :: rest, y => do
    let (l', r', y) ← renderFrame y k l r
    let (out, y) ← renderFrames k rest y
    .ok (l' :: r' :: out, y)
  | out, y => .ok (out, y)

/-- After an instance's frames: the silence-timer counts the render invocation if the voice is silent, up to its maximum (R100). -/
def updateTimer (y : System) (k timer : Nat) : Except HostRefusal System := do
  let (w, y) ← y.read k .status
  if statusInSilence w then
    .ok { y with host := { y.host with live := setTimer k (Min.min (timer + 1) SILENCE_TIMER_MAX) y.host.live } }
  else .ok y

/-- Every live voice in allocation order: all its frames, then its timer (R102). -/
def renderVoices : List LiveVoice → List Word → System → Except HostRefusal (List Word × System)
  | [], out, y => .ok (out, y)
  | v :: rest, out, y => do
    let (out, y) ← renderFrames v.inst out y
    let y ← updateTimer y v.inst v.timer
    renderVoices rest out y

/-- Retire, of the voices given, each that is silent and whose timer exceeds HYSTERESIS: CLEAR it and free it; the rest stay, in
order (R101). -/
def cleanUpVoices : List LiveVoice → System → Except HostRefusal (List LiveVoice × System)
  | [], y => .ok ([], y)
  | v :: rest, y => do
    let (w, y) ← y.read v.inst .status
    if statusInSilence w && decide (HYSTERESIS < v.timer) then do
      let y ← y.issue v.inst .clear
      cleanUpVoices rest { y with host := { y.host with free := y.host.free ++ [v.inst] } }
    else do
      let (kept, y) ← cleanUpVoices rest y
      .ok (v :: kept, y)

/-- Host cleanUp, once per render invocation (R101). -/
def cleanUp (y : System) : Except HostRefusal System := do
  let (kept, y) ← cleanUpVoices y.host.live y
  .ok { y with host := { y.host with live := kept } }

/-- One entry of the UI snapshot: the registers the host reads for it. `ADSR.value()` and the pan remap of the source are not
defined and have no model (R104; log 16). -/
structure UiEntry where
  note : Word
  active : Bool
  pan : Word
  envOut : Word
  deriving DecidableEq, Repr

/-- Insert an entry in ascending order of note. -/
def insertEntry (e : UiEntry) : List UiEntry → List UiEntry
  | [] => [e]
  | f :: rest => if e.note.toNat ≤ f.note.toNat then e :: f :: rest else f :: insertEntry e rest

/-- One entry per live instance, in ascending order of note (R104). -/
def snapshotEntries : List LiveVoice → System → Except HostRefusal (List UiEntry × System)
  | [], y => .ok ([], y)
  | v :: rest, y => do
    let (n, y) ← y.read v.inst .note
    let (st, y) ← y.read v.inst .status
    let (p, y) ← y.read v.inst .pan
    let (e, y) ← y.read v.inst .envOut
    let (entries, y) ← snapshotEntries rest y
    .ok (insertEntry ⟨n, st.getLsbD 5, p, e⟩ entries, y)

/-- Publish the UI snapshot if the UI flag is on and the non-blocking acquisition succeeds (R104). -/
def publish (y : System) : Except HostRefusal (Option (List UiEntry) × System) :=
  if y.host.uiOn && Config.uiAcquired y.host.renders then do
    let (entries, y) ← snapshotEntries y.host.live y
    .ok (some entries, y)
  else .ok (none, y)

/-- What one render invocation leaves: the buffer, the snapshot if one was published, and the system. -/
structure Rendered where
  out : List Word
  snapshot : Option (List UiEntry)
  system : System
  deriving DecidableEq, Repr

/-- Host renderBuffer for a buffer of `length` interleaved samples, left at even indices (R102). -/
def renderBuffer (length : Nat) (y : System) : Except HostRefusal Rendered := do
  let y ← drain y.host.queue { y with host := { y.host with queue := [], renders := y.host.renders + 1 } }
  let (out, y) ← renderVoices y.host.live (List.replicate length 0) y
  let y ← cleanUp y
  let (snapshot, y) ← publish y
  .ok ⟨out, snapshot, y⟩

end Sys2Proof.Machine
end

