-- ==== Sys2Proof/Safety.lean ====
section
/-! DEFINITION. What counts as a legal state, in the terms the claims use: the invariants of R34 with the domains of R25, R26, R31,
R32, the agreement of the error record with the sticky bits (R23, R106) and that of the Gate with the envelope (R77). -/

namespace Sys2Proof.Machine

/-- PAN is in [0, 1] (R26, R34 (a)). -/
def State.panLegal (s : State) : Bool := F32.inUnit s.pan

/-- PHASE is in [0, TWO_PI) and is not −0: its pattern is below that of TWO_PI (R28, R34 (b)). -/
def State.phaseWrapped (s : State) : Bool := decide (s.phase.toNat < TWO_PI.toNat)

/-- ENV = Silence implies POSITION = +0 (R34 (c)). -/
def State.silencePinned (s : State) : Bool := decide (s.env = .silence → s.position = 0)

/-- ENV = Silence or Release implies a lowish Gate (R77, corner case; 93_implementation_defined.md 1.3). -/
def State.gateAgrees (s : State) : Bool := decide (s.env = .silence ∨ s.env = .release → lowish s.gate = true)

/-- PEAK_GAIN is finite and not below zero (R25). -/
def State.peakLegal (s : State) : Bool := gainAccepted s.peakGain

/-- The configuration registers are in their domains (R31, R32). -/
def State.configLegal (s : State) : Bool :=
  decide (s.sampleRate ≠ 0) && F32.isFinite s.attackTime && F32.isFinite s.decayTime && F32.isFinite s.releaseTime &&
    F32.inUnit s.sustainLevel

/-- ERRINFO records an error exactly when a sticky bit is set, and the bit its cause sets is (R23, R105, R106). -/
def State.errorLegal (s : State) : Bool :=
  match s.errinfo.cause with
  | .none => s.noError && decide (s.errinfo.opc = 0 ∧ s.errinfo.a = 0)
  | .value => s.errValue
  | _ => s.errIllegal

/-- A legal state: everything R34 asks but the wrap of the phase, which is stated apart because it rests on PHASE_INC being finite
(log 1). -/
def State.legal (s : State) : Bool :=
  s.panLegal && s.silencePinned && s.gateAgrees && s.peakLegal && s.configLegal && s.errorLegal

end Sys2Proof.Machine
end

