-- ==== Sys2Proof/Certificates/Slice0/Obligations.lean ====
section
/-! DEFINITION. What is claimed of the model, rule by rule of spec/. Each statement names the rule or section it formalises. A NaN
that an operation produces is a free value: no statement rests on which it is. -/

open Sys2Proof Sys2Proof.Machine

/-! ### Encoding (30_encoding.md) -/

/-- Decoding the word of a command gives the command back, every operand at every value (R53, R54). -/
def Obligations.DecodeOfEncode : Prop :=
  ∀ i : Instr, i.wellFormed = true → decode (encode i) = .legal i

/-- R53: a word decodes to a command exactly when it matches that command's row (match and mask as the rule prints them) and the
operands are its A and D fields. -/
def Obligations.LegalWordsAreTheRowsOfTheOpcodeMap : Prop :=
  ∀ (w : Cmd) (i : Instr),
    decode w = .legal i ↔ (w &&& maskOf i = matchOf i ∧ aOf i = w.extractLsb' 48 8 ∧ dOf i = w.extractLsb' 0 32)

/-- R55 (a) to (c): which words are illegal, and with which cause. -/
def Obligations.IllegalWordsAndTheirCauses : Prop :=
  ∀ w : Cmd,
    (decode w = .illegal .opcode ↔ 8 ≤ (w.extractLsb' 56 8).toNat) ∧
    (decode w = .illegal .reserved ↔ (w.extractLsb' 56 8).toNat < 8 ∧
      (w.extractLsb' 32 16 ≠ 0 ∨
        ((w.extractLsb' 56 8).toNat ∈ [0, 1, 3, 4, 7] ∧ w.extractLsb' 48 8 ≠ 0) ∨
        ((w.extractLsb' 56 8).toNat ∈ [0, 1, 4, 6, 7] ∧ w.extractLsb' 0 32 ≠ 0))) ∧
    (∀ c, decode w = .illegal c → c = .opcode ∨ c = .reserved)

/-- Words written out in the spec decode to the commands they stand for (examples of R59 to R63, R69, R70, R92). -/
def Obligations.WordsOfTheSpecDecode : Prop :=
  decode 0x0000000000000000 = .legal .nop ∧
  decode 0x0100000000000000 = .legal .tick ∧
  decode 0x024500003F800000 = .legal (.keyon 69 0x3F800000) ∧
  decode 0x030000003E800000 = .legal (.restrike 0x3E800000) ∧
  decode 0x0400000000000000 = .legal .keyoff ∧
  decode 0x051300003F000000 = .legal (.wrreg 0x13 0x3F000000) ∧
  decode 0x0600000000000000 = .legal (.rdreg 0x00) ∧
  decode 0x0700000000000000 = .legal .clear

/-- R39, the part on bytes: a command is sent as eight bytes and a response as four, byte `k` of each being its bits 8k+7:8k; and a
command is read back whole from a byte stream that begins with its bytes. -/
def Obligations.CommandBytesLeastSignificantFirst : Prop :=
  (∀ (w : Cmd) (rest : List Byte),
    (commandBytes w).length = 8 ∧ (∀ k < 8, (commandBytes w)[k]? = some (w.extractLsb' (8 * k) 8)) ∧
    commandOfBytes (commandBytes w ++ rest) = some (w, rest)) ∧
  (∀ v : Word, (responseBytes v).length = 4 ∧ ∀ k < 4, (responseBytes v)[k]? = some (v.extractLsb' (8 * k) 8))

/-! ### The step (20_memory.md, 60_exceptions.md, 70_reset_and_hazards.md) -/

/-- A presented word that decodes to a command is executed: the step is `exec` of it at the state with the word taken up. The
advance of `inputs` and `drawNo` is the model's own (logs 4 and 5). -/
def Obligations.StepExecutesTheDecodedCommand : Prop :=
  ∀ (s : State) (w : Cmd) (rest : List Input) (i : Instr),
    s.inputs = .command w :: rest → decode w = .legal i →
      step s = exec i { s with inputs := rest, drawNo := s.drawNo + 1 }

/-- R55, last sentences, with R106: an illegal word sets ERR_ILLEGAL, records itself in ERRINFO if it is the first error, and
changes nothing else (the advance of `inputs` and `drawNo` is the model's own). -/
def Obligations.IllegalWordChangesOnlyTheErrorState : Prop :=
  ∀ (s : State) (w : Cmd) (rest : List Input) (c : Cause),
    s.inputs = .command w :: rest → decode w = .illegal c →
      step s = .next { s with
        inputs := rest
        drawNo := s.drawNo + 1
        errIllegal := true
        errinfo := if s.errIllegal = false ∧ s.errValue = false then ⟨c, w.extractLsb' 56 8, w.extractLsb' 48 8⟩
          else s.errinfo }

/-- R106, "The block does not stop, trap or wait": whatever the host presents, a step gives a next state; and R115: while the host
presents nothing, the block holds all its state. -/
def Obligations.TheBlockNeverStops : Prop :=
  (∀ s : State, ∃ t, step s = .next t) ∧ (∀ s : State, s.inputs = [] → step s = .next s)

/-- R36: the reset values, and the domains of the OPEN parameters among them (R6). -/
def Obligations.ResetValues : Prop :=
  State.reset.gate = .low ∧ State.reset.env = .silence ∧ State.reset.active = false ∧ State.reset.errIllegal = false ∧
  State.reset.errValue = false ∧ State.reset.errinfoWord = 0 ∧ State.reset.noteWord = 0 ∧ State.reset.peakGain = 0 ∧
  State.reset.pan = 0x3F000000 ∧ State.reset.position = 0 ∧ State.reset.phase = 0 ∧ State.reset.envOut = 0 ∧
  State.reset.accL = 0 ∧ State.reset.accR = 0 ∧ State.reset.sampleRate = RESET_SAMPLE_RATE ∧
  State.reset.attackTime = RESET_ATTACK_TIME ∧ State.reset.decayTime = RESET_DECAY_TIME ∧
  State.reset.sustainLevel = RESET_SUSTAIN_LEVEL ∧ State.reset.releaseTime = RESET_RELEASE_TIME ∧
  State.reset.responses = [] ∧
  RESET_SAMPLE_RATE ≠ 0 ∧ F32.isFinite RESET_ATTACK_TIME = true ∧ F32.isFinite RESET_DECAY_TIME = true ∧
  F32.isFinite RESET_RELEASE_TIME = true ∧ F32.inUnit RESET_SUSTAIN_LEVEL = true

/-- R116: reset, between two commands, leaves every piece of the spec's state at its reset value, untaken responses discarded; what
the host presents afterwards (the model's `inputs`) is still to come. -/
def Obligations.ResetInputRestoresEveryRegister : Prop :=
  ∀ (s : State) (rest : List Input), s.inputs = .reset :: rest →
    ∃ n, step s = .next { State.reset with inputs := rest, drawNo := n }

/-! ### Errors (60_exceptions.md) -/

/-- R106: what raising an error records and sets. -/
def Obligations.RaisingAnErrorRecordsTheFirst : Prop :=
  ∀ (s : State) (c : Cause) (cmd : Cmd),
    s.raiseError c cmd = { s with
      errinfo := if s.errIllegal = false ∧ s.errValue = false then ⟨c, cmd.extractLsb' 56 8, cmd.extractLsb' 48 8⟩ else s.errinfo
      errValue := if c = .value then true else s.errValue
      errIllegal := if c = .value then s.errIllegal else true }

/-- R22 (with R106 and R108): raising an error sets one of the sticky bits; CLEAR and reset clear them; no other step clears a bit, nor
changes a recorded ERRINFO. -/
def Obligations.ErrorsStayUntilClearOrReset : Prop :=
  (∀ (s : State) (c : Cause) (cmd : Cmd), (s.raiseError c cmd).errIllegal = true ∨ (s.raiseError c cmd).errValue = true) ∧
  (∀ s : State, ∃ t, exec .clear s = .next t ∧ t.errIllegal = false ∧ t.errValue = false) ∧
  (∀ (s : State) (rest : List Input), s.inputs = .reset :: rest →
    ∃ t, step s = .next t ∧ t.errIllegal = false ∧ t.errValue = false) ∧
  (∀ s t : State, step s = .next t →
    (∀ rest, s.inputs ≠ .reset :: rest) →
    (∀ w rest, s.inputs = .command w :: rest → decode w ≠ .legal .clear) →
      (s.errIllegal = true → t.errIllegal = true) ∧ (s.errValue = true → t.errValue = true) ∧
      (s.errIllegal = true ∨ s.errValue = true → t.errinfo = s.errinfo))

/-! ### Voice control (40_control.md) -/

/-- R59 and R62: NOP changes nothing, KEYOFF clears ACTIVE and changes nothing else. -/
def Obligations.NopAndKeyoff : Prop :=
  ∀ s : State, exec .nop s = .next s ∧ exec .keyoff s = .next { s with active := false }

/-- R60: KEYON with an accepted gain, and everything it leaves unchanged; with any other gain it records CAUSE_VALUE and changes
nothing else. -/
def Obligations.KeyonAllocatesTheVoice : Prop :=
  ∀ (s : State) (note : Byte) (gain : Word),
    (F32.isFinite gain = true → F32.ge gain 0 = true →
      exec (.keyon note gain) s = .next { s with
        note := note
        peakGain := if gain = 0x80000000 then 0 else gain
        active := true
        gate := .low
        env := .silence
        position := 0
        phase := 0
        envOut := 0 }) ∧
    (F32.isFinite gain = false ∨ F32.ge gain 0 = false →
      exec (.keyon note gain) s = .next (s.raiseError .value (encode (.keyon note gain))))

/-- R61: RESTRIKE with an accepted gain, and everything it leaves unchanged; with any other gain it records CAUSE_VALUE and changes
nothing else. -/
def Obligations.RestrikeInPlace : Prop :=
  ∀ (s : State) (gain : Word),
    (F32.isFinite gain = true → F32.ge gain 0 = true →
      exec (.restrike gain) s = .next { s with peakGain := if gain = 0x80000000 then 0 else gain, active := true }) ∧
    (F32.isFinite gain = false ∨ F32.ge gain 0 = false →
      exec (.restrike gain) s = .next (s.raiseError .value (encode (.restrike gain))))

/-- R58: a gain that is not finite or is below zero raises CAUSE_VALUE and changes nothing else; an accepted gain is stored as a
finite value with its sign bit clear, equal to the operand but for −0. -/
def Obligations.GainOperandCheck : Prop :=
  ∀ (s : State) (note : Byte) (gain : Word),
    ((F32.isFinite gain = false ∨ F32.ge gain 0 = false) →
      exec (.keyon note gain) s = .next (s.raiseError .value (encode (.keyon note gain))) ∧
      exec (.restrike gain) s = .next (s.raiseError .value (encode (.restrike gain)))) ∧
    (F32.isFinite gain = true → F32.ge gain 0 = true →
      ∃ t u, exec (.keyon note gain) s = .next t ∧ exec (.restrike gain) s = .next u ∧ t.peakGain = u.peakGain ∧
        t.peakGain.toNat < 0x7F800000 ∧ (gain ≠ 0x80000000 → t.peakGain = gain) ∧ (gain = 0x80000000 → t.peakGain = 0))

/-- R63: CLEAR leaves the reset state but for the five configuration registers and the response stream, which it keeps (and the
model's own `inputs` and `drawNo`). -/
def Obligations.ClearKeepsTheConfiguration : Prop :=
  ∀ s : State, exec .clear s = .next { State.reset with
    sampleRate := s.sampleRate
    attackTime := s.attackTime
    decayTime := s.decayTime
    sustainLevel := s.sustainLevel
    releaseTime := s.releaseTime
    responses := s.responses
    inputs := s.inputs
    drawNo := s.drawNo }

/-! ### Register access (20_memory.md, 41_register_access.md) -/

/-- R38: the register map, its unmapped addresses and its read-only registers. -/
def Obligations.RegisterMap : Prop :=
  ([0x00, 0x01, 0x02, 0x03, 0x04, 0x05, 0x06, 0x07, 0x08, 0x09, 0x10, 0x11, 0x12, 0x13, 0x14, 0x18, 0x19, 0x1A, 0x1B, 0x1C,
      0x1D].map regOfAddr =
    [some .status, some .errinfo, some .note, some .peakGain, some .pan, some .position, some .phase, some .envOut, some .accL,
      some .accR, some .sampleRate, some .attackTime, some .decayTime, some .sustainLevel, some .releaseTime, some .dt,
      some .attackRate, some .decayRate, some .releaseRate, some .freq, some .phaseInc]) ∧
  (∀ a : Byte, (0x0A ≤ a.toNat ∧ a.toNat ≤ 0x0F) ∨ (0x15 ≤ a.toNat ∧ a.toNat ≤ 0x17) ∨ 0x1E ≤ a.toNat → regOfAddr a = none) ∧
  (∀ r : Reg, regOfAddr (addrOfReg r) = some r ∧ (regReadOnly r = true ↔ r ∈ [Reg.status, Reg.errinfo, Reg.position, Reg.phase,
    Reg.envOut, Reg.dt, Reg.attackRate, Reg.decayRate, Reg.releaseRate, Reg.freq, Reg.phaseInc]))

/-- R67: an unmapped address raises CAUSE_UNMAPPED; a WRREG changes nothing else, an RDREG still responds 0x00000000. -/
def Obligations.UnmappedAddress : Prop :=
  ∀ (s : State) (a : Byte) (v : Word), regOfAddr a = none →
    exec (.wrreg a v) s = .next (s.raiseError .unmapped (encode (.wrreg a v))) ∧
    exec (.rdreg a) s = .next { s.raiseError .unmapped (encode (.rdreg a)) with responses := s.responses ++ [0] }

/-- R68: a WRREG of a read-only register raises CAUSE_READONLY and changes nothing else, whatever the value. -/
def Obligations.ReadOnlyRegistersRefuseWrites : Prop :=
  ∀ (s : State) (v : Word), ∀ r ∈ [Reg.status, Reg.errinfo, Reg.position, Reg.phase, Reg.envOut, Reg.dt, Reg.attackRate,
      Reg.decayRate, Reg.releaseRate, Reg.freq, Reg.phaseInc],
    exec (.wrreg (addrOfReg r) v) s = .next (s.raiseError .readonly (encode (.wrreg (addrOfReg r) v)))

/-- R69: WRREG tests the address, then the access, then the value, and stores the value only when all three pass; each failed test
records its own cause and changes nothing else. -/
def Obligations.WrregTestsInOrder : Prop :=
  ∀ (s : State) (a : Byte) (v : Word),
    (regOfAddr a = none → exec (.wrreg a v) s = .next (s.raiseError .unmapped (encode (.wrreg a v)))) ∧
    (∀ r, regOfAddr a = some r →
      (regReadOnly r = true → exec (.wrreg a v) s = .next (s.raiseError .readonly (encode (.wrreg a v)))) ∧
      (regReadOnly r = false → regAccepts r v = false →
        exec (.wrreg a v) s = .next (s.raiseError .value (encode (.wrreg a v)))) ∧
      (regReadOnly r = false → regAccepts r v = true → exec (.wrreg a v) s = .next (s.writeReg r v)))

/-- R65: a WRREG of a writable register with a value in its domain stores what the table says and changes nothing else; a value
outside the domain raises CAUSE_VALUE and leaves every register unchanged. The address of each register is that of R38. -/
def Obligations.WrregDomainsAndStoredValues : Prop :=
  ∀ (s : State) (v : Word),
    (v.extractLsb' 8 24 = 0 → exec (.wrreg 0x02 v) s = .next { s with note := v.extractLsb' 0 8 }) ∧
    (F32.isFinite v = true → F32.ge v 0 = true → exec (.wrreg 0x03 v) s = .next { s with peakGain := F32.normz v }) ∧
    (F32.isFinite v = true → exec (.wrreg 0x04 v) s = .next { s with pan := F32.normz (F32.clamp v 0 0x3F800000) }) ∧
    (F32.isFinite v = true → exec (.wrreg 0x08 v) s = .next { s with accL := v }) ∧
    (F32.isFinite v = true → exec (.wrreg 0x09 v) s = .next { s with accR := v }) ∧
    (v ≠ 0 → exec (.wrreg 0x10 v) s = .next { s with sampleRate := v }) ∧
    (F32.isFinite v = true → exec (.wrreg 0x11 v) s = .next { s with attackTime := F32.normz v }) ∧
    (F32.isFinite v = true → exec (.wrreg 0x12 v) s = .next { s with decayTime := F32.normz v }) ∧
    (F32.isFinite v = true → F32.ge v 0 = true → F32.le v 0x3F800000 = true →
      exec (.wrreg 0x13 v) s = .next { s with sustainLevel := F32.normz v }) ∧
    (F32.isFinite v = true → exec (.wrreg 0x14 v) s = .next { s with releaseTime := F32.normz v }) ∧
    (v.extractLsb' 8 24 ≠ 0 → exec (.wrreg 0x02 v) s = .next (s.raiseError .value (encode (.wrreg 0x02 v)))) ∧
    (F32.isFinite v = false ∨ F32.ge v 0 = false →
      exec (.wrreg 0x03 v) s = .next (s.raiseError .value (encode (.wrreg 0x03 v)))) ∧
    (F32.isFinite v = false → ∀ a ∈ [(0x04 : Byte), 0x08, 0x09, 0x11, 0x12, 0x14],
      exec (.wrreg a v) s = .next (s.raiseError .value (encode (.wrreg a v)))) ∧
    (v = 0 → exec (.wrreg 0x10 v) s = .next (s.raiseError .value (encode (.wrreg 0x10 v)))) ∧
    (F32.isFinite v = false ∨ F32.ge v 0 = false ∨ F32.le v 0x3F800000 = false →
      exec (.wrreg 0x13 v) s = .next (s.raiseError .value (encode (.wrreg 0x13 v))))

/-- R66: an accepted PAN write stores a value in [0, 1] that is never −0: values below 0 store +0, values above 1 store 1.0, values
between are stored as they are; and no error is raised. -/
def Obligations.PanWritesAreClamped : Prop :=
  ∀ (s : State) (v : Word), F32.isFinite v = true →
    ∃ p, exec (.wrreg 0x04 v) s = .next { s with pan := p } ∧ p = F32.normz (F32.clamp v 0 0x3F800000) ∧ p.toNat ≤ 0x3F800000 ∧
      (F32.le v 0 = true → p = 0) ∧ (F32.ge v 0x3F800000 = true → p = 0x3F800000) ∧
      (F32.lt 0 v = true → F32.lt v 0x3F800000 = true → p = v)

/-- R41, its sentence on writes: a WRREG with the same value twice leaves the same state as once (an error it raises included). -/
def Obligations.WritesAreIdempotent : Prop :=
  ∀ (s t : State) (a : Byte) (v : Word), exec (.wrreg a v) s = .next t → exec (.wrreg a v) t = .next t

/-- R70: RDREG of a mapped register responds with the register's value and changes nothing else, and what each register reads as (NOTE:
R24, the note in bits 7:0 and zeros above); of an unmapped address it records CAUSE_UNMAPPED and responds 0. -/
def Obligations.RdregRespondsWithTheRegister : Prop :=
  ∀ s : State,
    (∀ r : Reg, exec (.rdreg (addrOfReg r)) s = .next { s with responses := s.responses ++ [s.readReg r] }) ∧
    (∀ a : Byte, regOfAddr a = none →
      exec (.rdreg a) s = .next { s.raiseError .unmapped (encode (.rdreg a)) with responses := s.responses ++ [0] }) ∧
    [Reg.status, .errinfo, .note, .peakGain, .pan, .position, .phase, .envOut, .accL, .accR, .sampleRate, .attackTime, .decayTime,
      .sustainLevel, .releaseTime, .dt, .attackRate, .decayRate, .releaseRate, .freq, .phaseInc].map s.readReg =
    [s.statusWord, s.errinfoWord, s.noteWord, s.peakGain, s.pan, s.position, s.phase, s.envOut, s.accL, s.accR, s.sampleRate,
      s.attackTime, s.decayTime, s.sustainLevel, s.releaseTime, s.dt, s.attackRate, s.decayRate, s.releaseRate, s.freq, s.phaseInc] ∧
    s.statusWord = (0 : BitVec 23) ++ BitVec.ofBool s.errValue ++ BitVec.ofBool s.errIllegal ++
      BitVec.ofBool (decide (s.env = .silence)) ++ BitVec.ofBool s.active ++ s.env.code ++ s.gate.code ∧
    s.noteWord = (0 : BitVec 24) ++ s.note

/-- R18 and R23: the fields of the STATUS and the ERRINFO word, bit by bit, the others reading as zero. -/
def Obligations.StatusAndErrinfoWords : Prop :=
  ∀ s : State,
    (s.statusWord.extractLsb' 0 2 = (match s.gate with | .low => 0 | .risingEdge => 1 | .high => 2 | .fallingEdge => 3) ∧
     s.statusWord.extractLsb' 2 3 =
      (match s.env with | .silence => 0 | .attack => 1 | .decay => 2 | .sustain => 3 | .release => 4) ∧
     s.statusWord.getLsbD 5 = s.active ∧ s.statusWord.getLsbD 6 = decide (s.env = .silence) ∧
     s.statusWord.getLsbD 7 = s.errIllegal ∧ s.statusWord.getLsbD 8 = s.errValue ∧ s.statusWord.extractLsb' 9 23 = 0) ∧
    (s.errinfoWord.extractLsb' 0 4 = (match s.errinfo.cause with
        | .none => 0 | .opcode => 1 | .reserved => 2 | .unmapped => 3 | .readonly => 4 | .value => 5) ∧
     s.errinfoWord.extractLsb' 4 4 = 0 ∧ s.errinfoWord.extractLsb' 8 8 = s.errinfo.opc ∧
     s.errinfoWord.extractLsb' 16 8 = s.errinfo.a ∧ s.errinfoWord.extractLsb' 24 8 = 0)

/-- R64: of all presented words only an RDREG appends to the response stream, and it appends one word; an illegal word never
responds; and the host takes responses in order: a take drops the oldest one and changes nothing else but the model's own `inputs`
(log 5). Of a take from an empty stream, which is log 7's choice, nothing is said. -/
def Obligations.OnlyRdregResponds : Prop :=
  (∀ (s t : State) (w : Cmd) (rest : List Input), s.inputs = .command w :: rest → step s = .next t →
    ((∃ a, decode w = .legal (.rdreg a)) ∧ ∃ v, t.responses = s.responses ++ [v]) ∨
    ((∀ a, decode w ≠ .legal (.rdreg a)) ∧ t.responses = s.responses)) ∧
  (∀ (s : State) (rest : List Input) (oldest : Word) (later : List Word), s.inputs = .take :: rest →
    s.responses = oldest :: later → step s = .next { s with inputs := rest, responses := later })

/-! ### The Gate (42_gate.md) -/

/-- R72: the next-state table. -/
def Obligations.GateTransitionTable : Prop :=
  gateNext .low false = .low ∧ gateNext .low true = .risingEdge ∧
  gateNext .risingEdge false = .fallingEdge ∧ gateNext .risingEdge true = .high ∧
  gateNext .high false = .fallingEdge ∧ gateNext .high true = .high ∧
  gateNext .fallingEdge false = .low ∧ gateNext .fallingEdge true = .risingEdge

/-- R73, with R71 and the step of R34 (e): an edge is reported exactly when the input differs from the previous one, which the new state
records; in a run of equal inputs of any length no call after the first reports an edge; after reset, CLEAR and an accepted KEYON the
first held input reports a rising edge. -/
def Obligations.GateReportsEachEdgeOnce : Prop :=
  (∀ (g : Gate) (held : Bool),
    (gateNext g held = .risingEdge ↔ held = true ∧ highish g = false) ∧
    (gateNext g held = .fallingEdge ↔ held = false ∧ highish g = true) ∧
    highish (gateNext g held) = held ∧ lowish g = !highish g) ∧
  (∀ (g : Gate) (held : Bool) (n : Nat),
    (fun h => gateNext h held)^[n + 2] g = if held then Gate.high else Gate.low) ∧
  gateNext State.reset.gate true = .risingEdge ∧
  (∀ s : State, ∃ t, exec .clear s = .next t ∧ gateNext t.gate true = .risingEdge) ∧
  (∀ (s : State) (n : Byte) (gain : Word), F32.isFinite gain = true → F32.ge gain 0 = true →
    ∃ t, exec (.keyon n gain) s = .next t ∧ gateNext t.gate t.active = .risingEdge)

/-! ### The ADSR (43_adsr.md) -/

/-- R77: the Silence step. -/
def Obligations.AdsrSilenceStep : Prop :=
  ∀ (s : State) (pos : Word) (g : Gate),
    adsrStep s .silence pos g = (if g = .risingEdge then (Env.attack, (0 : Word)) else (Env.silence, (0 : Word)))

/-- R78: the Attack step, whatever the Gate. -/
def Obligations.AdsrAttackStep : Prop :=
  ∀ (s : State) (pos : Word) (g : Gate),
    let p := F32.add (s.nan .ramp) pos (F32.mul (s.nan .rampStep) s.attackRate s.dt)
    adsrStep s .attack pos g =
      (if F32.ge p s.peakGain = true then (Env.decay, F32.min p 0x3F800000) else (Env.attack, p))

/-- R79: the Decay step. -/
def Obligations.AdsrDecayStep : Prop :=
  ∀ (s : State) (pos : Word) (g : Gate),
    let p := F32.sub (s.nan .ramp) pos (F32.mul (s.nan .rampStep) s.decayRate s.dt)
    let target := F32.mul (s.nan .decayTarget) s.sustainLevel s.peakGain
    adsrStep s .decay pos g =
      (if g = .risingEdge then (Env.attack, p)
       else if F32.le p target = true then (Env.sustain, target) else (Env.decay, p))

/-- R80: the Sustain step. -/
def Obligations.AdsrSustainStep : Prop :=
  ∀ (s : State) (pos : Word),
    adsrStep s .sustain pos .low = (.release, pos) ∧ adsrStep s .sustain pos .fallingEdge = (.release, pos) ∧
    adsrStep s .sustain pos .risingEdge = (.attack, pos) ∧ adsrStep s .sustain pos .high = (.sustain, pos)

/-- R81: the Release step. -/
def Obligations.AdsrReleaseStep : Prop :=
  ∀ (s : State) (pos : Word) (g : Gate),
    let p := F32.sub (s.nan .ramp) pos (F32.mul (s.nan .rampStep) s.releaseRate s.dt)
    adsrStep s .release pos g =
      (if g = .risingEdge then (Env.attack, p)
       else if F32.le p 0 = true then (Env.silence, (0 : Word)) else (Env.release, p))

/-- R82: only a rising edge diverts Decay, Sustain and Release into Attack, and it does so from each; a falling edge cuts neither
Decay nor Release short (the step is that of a Low Gate, and for Decay that of a High one); Attack reads no Gate; and only Sustain
reacts to a lowish Gate. -/
def Obligations.OnlyARisingEdgeDivertsTheEnvelope : Prop :=
  ∀ (s : State) (env : Env) (pos : Word) (g : Gate),
    (env ≠ .silence → env ≠ .attack → ((adsrStep s env pos g).1 = .attack ↔ g = .risingEdge)) ∧
    adsrStep s env pos .fallingEdge = adsrStep s env pos .low ∧
    (env ≠ .sustain → adsrStep s env pos .fallingEdge = adsrStep s env pos .high) ∧
    adsrStep s .attack pos g = adsrStep s .attack pos .high

/-- R75: the rates, each finite and not negative in every legal configuration; DECAY_RATE is 0 at SUSTAIN_LEVEL 1 and RELEASE_RATE
is 0 at SUSTAIN_LEVEL 0. -/
def Obligations.RatesAreFiniteAndNotNegative : Prop :=
  ∀ s : State, s.configLegal = true →
    s.attackRate = F32.div (s.nan .attackRate) 0x3F800000 (F32.max s.attackTime EPSILON) ∧
    s.decayRate = F32.div (s.nan .decayRate) (F32.sub (s.nan .decaySpan) 0x3F800000 s.sustainLevel)
      (F32.max s.decayTime EPSILON) ∧
    s.releaseRate = F32.div (s.nan .releaseRate) s.sustainLevel (F32.max s.releaseTime EPSILON) ∧
    (∀ r ∈ [s.attackRate, s.decayRate, s.releaseRate], F32.isFinite r = true ∧ F32.ge r 0 = true) ∧
    (s.sustainLevel = 0x3F800000 → s.decayRate = 0) ∧ (s.sustainLevel = 0 → s.releaseRate = 0)

/-- R83: the envelope sample of a TICK is the square of the position after the step, not the position; TICK writes it to ENV_OUT and
scales the oscillator by it; it is not negative, even where the position is, and +0 at a zero position. -/
def Obligations.EnvelopeSampleIsTheSquare : Prop :=
  ∀ s : State, ∃ t, exec .tick s = .next t ∧
    t.envOut = F32.mul (s.nan .envelope) t.position t.position ∧
    t.accL = F32.add (s.nan .sumLeft) s.accL
      (F32.mul (s.nan .sampleLeft) (F32.mul (s.nan .sample) (osc s s.phase) t.envOut) (gainLeft s)) ∧
    t.accR = F32.add (s.nan .sumRight) s.accR
      (F32.mul (s.nan .sampleRight) (F32.mul (s.nan .sample) (osc s s.phase) t.envOut) (gainRight s)) ∧
    (F32.isNaN t.position = false → F32.signBit t.envOut = false ∧ F32.isNaN t.envOut = false) ∧
    (F32.isZero t.position = true → t.envOut = 0)

/-! ### Frequency, phase and oscillator (44_oscillator_phase.md) -/

/-- R85: DT is `1.0 / u32_to_num(SAMPLE_RATE)`, and for a sample rate that is not 0 it is finite, positive and at most 1.0. -/
def Obligations.DtIsTheReciprocalOfTheSampleRate : Prop :=
  ∀ s : State, s.sampleRate ≠ 0 →
    s.dt = F32.div (s.nan .dt) 0x3F800000 (F32.ofNat s.sampleRate.toNat) ∧
    F32.isFinite s.dt = true ∧ F32.lt 0 s.dt = true ∧ F32.le s.dt 0x3F800000 = true

/-- R86 without its claim that FREQ is finite, which does not follow from EXP2_FINITE in binary32 (log 1): the frequency law; `x` is
in [−5.75, 15.5], and exact at notes 57, 60 and 81; FREQ is positive; note 69 gives exactly 440.0. -/
def Obligations.FrequencyLaw : Prop :=
  ∀ s : State,
    s.noteRatio = F32.div (s.nan .noteRatio) (F32.ofInt ((s.note.toNat : Int) - 69)) 0x41400000 ∧
    s.freq = F32.mul (s.nan .freq) 0x43DC0000 (EXP2 s.noteRatio) ∧
    F32.le 0xC0B80000 s.noteRatio = true ∧ F32.le s.noteRatio 0x41780000 = true ∧ F32.lt 0 s.freq = true ∧
    (s.note = 57 → s.noteRatio = 0xBF800000) ∧ (s.note = 60 → s.noteRatio = 0xBF400000) ∧
    (s.note = 81 → s.noteRatio = 0x3F800000) ∧ (s.note = 69 → s.freq = 0x43DC0000)

/-- R87 without its claim that PHASE_INC is finite (log 1): the phase increment, which is never a NaN and never negative for a sample
rate that is not 0. -/
def Obligations.PhaseIncrementIsNotNegative : Prop :=
  ∀ s : State, s.sampleRate ≠ 0 →
    s.phaseInc = F32.mul (s.nan .phaseInc) (F32.mul (s.nan .radiansPerSecond) 0x40C90FDB s.freq) s.dt ∧
    F32.isNaN s.phaseInc = false ∧ F32.signBit s.phaseInc = false

/-- R88: the oscillator as the rule groups it; for a phase in [0, TWO_PI) it is finite and in [−1, 1], and at +0 it is +0. -/
def Obligations.OscillatorStaysInUnitRange : Prop :=
  ∀ (s : State) (φ : Word), φ.toNat < 0x40C90FDB →
    osc s φ = F32.div (s.nan .oscillator)
      (F32.add (s.nan .harmonicSum135)
        (F32.add (s.nan .harmonicSum13) (F32.mul (s.nan .harmonic1) (SIN φ) 0x40400000)
          (F32.mul (s.nan .harmonic3) (SIN (F32.mul (s.nan .triplePhase) 0x40400000 φ)) 0x40000000))
        (F32.mul (s.nan .harmonic5) (SIN (F32.mul (s.nan .quintuplePhase) 0x40A00000 φ)) 0x3F800000)) 0x40C00000 ∧
    F32.isFinite (osc s φ) = true ∧ F32.le 0xBF800000 (osc s φ) = true ∧ F32.le (osc s φ) 0x3F800000 = true ∧ osc s 0 = 0 ∧
    F32.mul (s.nan .harmonic5) (SIN (F32.mul (s.nan .quintuplePhase) 0x40A00000 φ)) 0x3F800000 =
      SIN (F32.mul (s.nan .quintuplePhase) 0x40A00000 φ)

/-- R89, for a finite PHASE_INC (log 1): the sum is rounded and finite, the next phase is exactly the sum's remainder by TWO_PI, and it
lies in [0, TWO_PI) and is not −0. -/
def Obligations.PhaseWrapsExactly : Prop :=
  ∀ s : State, s.phase.toNat < 0x40C90FDB → s.sampleRate ≠ 0 → F32.isFinite s.phaseInc = true →
    F32.isFinite (F32.add (s.nan .phaseSum) s.phase s.phaseInc) = true ∧
    F32.scaled (phaseNext s) = F32.scaled (F32.add (s.nan .phaseSum) s.phase s.phaseInc) % F32.scaled TWO_PI ∧
    (phaseNext s).toNat < 0x40C90FDB

/-! ### The pan mixer and TICK (45_tick_mixer.md) -/

/-- R90, in binary32: the pan gains are the square roots, in [0, 1] for a legal PAN; fully left, fully right and centre. -/
def Obligations.PanGainsAreInUnitRange : Prop :=
  ∀ s : State, F32.inUnit s.pan = true →
    gainLeft s = F32.sqrt (s.nan .gainLeft) s.pan ∧
    gainRight s = F32.sqrt (s.nan .gainRight) (F32.sub (s.nan .panRight) 0x3F800000 s.pan) ∧
    F32.inUnit (gainLeft s) = true ∧ F32.inUnit (gainRight s) = true ∧
    (s.pan = 0x3F800000 → gainLeft s = 0x3F800000 ∧ gainRight s = 0) ∧
    (s.pan = 0 → gainLeft s = 0 ∧ gainRight s = 0x3F800000) ∧
    (s.pan = 0x3F000000 → gainLeft s = 0x3F3504F3 ∧ gainRight s = 0x3F3504F3)

/-- R92: TICK, every stage in the rule's order and every register it leaves unchanged. -/
def Obligations.TickRendersOneFrame : Prop :=
  ∀ s : State,
    let g := gateNext s.gate s.active
    let r := adsrStep s s.env s.position g
    let e := F32.mul (s.nan .envelope) r.2 r.2
    let smp := F32.mul (s.nan .sample) (osc s s.phase) e
    let gl := F32.sqrt (s.nan .gainLeft) s.pan
    let gr := F32.sqrt (s.nan .gainRight) (F32.sub (s.nan .panRight) 0x3F800000 s.pan)
    exec .tick s = .next { s with
      gate := g
      env := r.1
      position := r.2
      envOut := e
      accL := F32.add (s.nan .sumLeft) s.accL (F32.mul (s.nan .sampleLeft) smp gl)
      accR := F32.add (s.nan .sumRight) s.accR (F32.mul (s.nan .sampleRight) smp gr)
      phase := F32.fmod (s.nan .phaseWrap) (F32.add (s.nan .phaseSum) s.phase s.phaseInc) 0x40C90FDB }

/-- R92 corner case (a) with R91 corner case (a) and R84 (a). First: a TICK of a silent voice that is not held leaves it silent, its
envelope sample +0, a nonzero finite running sum unchanged, a sum of +0 at +0 and a sum of −0 a zero, for a wrapped phase and a legal
PAN. Second, of every voice: a TICK whose frame sample is +0 leaves a nonzero sum unchanged and turns a sum of −0, as of +0, into +0
(PAN in [0, 1] and, as R66 stores it, not −0). -/
def Obligations.SilentVoiceLeavesTheSums : Prop :=
  (∀ s : State, s.env = .silence → s.active = false → lowish s.gate = true →
    s.phase.toNat < 0x40C90FDB → F32.inUnit s.pan = true → F32.isFinite s.accL = true → F32.isFinite s.accR = true →
      ∃ t, exec .tick s = .next t ∧ t.gate = .low ∧ t.env = .silence ∧ t.position = 0 ∧ t.envOut = 0 ∧
        (∀ before after, (before, after) ∈ [(s.accL, t.accL), (s.accR, t.accR)] →
          (F32.isZero before = false → after = before) ∧ (before = 0 → after = 0) ∧
          (F32.isZero before = true → F32.isZero after = true))) ∧
  (∀ s : State,
    F32.mul (s.nan .sample) (osc s s.phase)
      (envelopeSample s (adsrStep s s.env s.position (gateNext s.gate s.active)).2) = 0 →
    s.pan.toNat ≤ 0x3F800000 → F32.isNaN s.accL = false → F32.isNaN s.accR = false →
      ∃ t, exec .tick s = .next t ∧ t.accL = (if F32.isZero s.accL = true then 0 else s.accL) ∧
        t.accR = (if F32.isZero s.accR = true then 0 else s.accR))

/-- R92 corner case (c): two voices with the same PHASE, NOTE and SAMPLE_RATE have the same PHASE after a TICK, whatever their
envelopes, gains, pans and sums are. -/
def Obligations.PhaseIsIndependentOfTheEnvelope : Prop :=
  ∀ s u : State, s.phase = u.phase → s.note = u.note → s.sampleRate = u.sampleRate → s.drawNo = u.drawNo →
    ∃ t v, exec .tick s = .next t ∧ exec .tick u = .next v ∧ t.phase = v.phase

/-- Which commands write which registers (10_state.md sections 2 to 4, with CLEAR of R63): whatever word is presented, a register
changes only if the word is a command that writes it. -/
def Obligations.EachRegisterHasItsWriters : Prop :=
  ∀ (s t : State) (w : Cmd) (rest : List Input), s.inputs = .command w :: rest → step s = .next t →
    (decode w ≠ .legal .tick → (∀ n g, decode w ≠ .legal (.keyon n g)) → decode w ≠ .legal .clear →
      t.gate = s.gate ∧ t.env = s.env ∧ t.position = s.position ∧ t.phase = s.phase ∧ t.envOut = s.envOut) ∧
    ((∀ n g, decode w ≠ .legal (.keyon n g)) → (∀ g, decode w ≠ .legal (.restrike g)) → decode w ≠ .legal .keyoff →
      decode w ≠ .legal .clear → t.active = s.active) ∧
    ((∀ a v, decode w ≠ .legal (.wrreg a v)) →
      t.sampleRate = s.sampleRate ∧ t.attackTime = s.attackTime ∧ t.decayTime = s.decayTime ∧
      t.sustainLevel = s.sustainLevel ∧ t.releaseTime = s.releaseTime ∧ (decode w ≠ .legal .clear → t.pan = s.pan) ∧
      (decode w ≠ .legal .clear → decode w ≠ .legal .tick → t.accL = s.accL ∧ t.accR = s.accR) ∧
      (decode w ≠ .legal .clear → (∀ n g, decode w ≠ .legal (.keyon n g)) →
        t.note = s.note ∧ ((∀ g, decode w ≠ .legal (.restrike g)) → t.peakGain = s.peakGain)))

/-! ### Binary32 (00_scope.md) -/

/-- R9 for `+`, with the gradual underflow and the overflow threshold of IEEE 754, which are PRESUMED (log 11): of all finite values none is nearer to the exact sum than a finite result, on a tie the result is the even one, and the
result is an infinity exactly when the exact sum is at or beyond half an ulp past the largest finite value. Values in units of
2^-149. -/
def Obligations.AddIsRoundedToNearestEven : Prop :=
  ∀ nan a b : Word, F32.isFinite a = true → F32.isFinite b = true →
    let x := F32.scaled a + F32.scaled b
    let r := F32.add nan a b
    (F32.isInf r = true ↔ 2 ^ 277 - 2 ^ 252 ≤ |x|) ∧ F32.isNaN r = false ∧
    (∀ c : Word, F32.isFinite r = true → F32.isFinite c = true →
      |F32.scaled r - x| ≤ |F32.scaled c - x| ∧
      (|F32.scaled r - x| = |F32.scaled c - x| → F32.scaled c ≠ F32.scaled r → r.toNat % 2 = 0))

/-- R9 for `*`, as for `+` and as there resting on log 11 (PRESUMED); the exact product of two values is in units of 2^-298. -/
def Obligations.MulIsRoundedToNearestEven : Prop :=
  ∀ nan a b : Word, F32.isFinite a = true → F32.isFinite b = true →
    let x := F32.scaled a * F32.scaled b
    let r := F32.mul nan a b
    (F32.isInf r = true ↔ (2 ^ 277 - 2 ^ 252) * 2 ^ 149 ≤ |x|) ∧ F32.isNaN r = false ∧
    (∀ c : Word, F32.isFinite r = true → F32.isFinite c = true →
      |F32.scaled r * 2 ^ 149 - x| ≤ |F32.scaled c * 2 ^ 149 - x| ∧
      (|F32.scaled r * 2 ^ 149 - x| = |F32.scaled c * 2 ^ 149 - x| → F32.scaled c ≠ F32.scaled r → r.toNat % 2 = 0))

/-- R9 for `/`, as for `+` and as there resting on log 11 (PRESUMED), by a divisor that is not zero; distances are compared times the divisor. -/
def Obligations.DivIsRoundedToNearestEven : Prop :=
  ∀ nan a b : Word, F32.isFinite a = true → F32.isFinite b = true → F32.isZero b = false →
    let x := F32.scaled a * 2 ^ 149
    let y := F32.scaled b
    let r := F32.div nan a b
    (F32.isInf r = true ↔ (2 ^ 277 - 2 ^ 252) * |y| ≤ |x|) ∧ F32.isNaN r = false ∧
    (∀ c : Word, F32.isFinite r = true → F32.isFinite c = true →
      |F32.scaled r * y - x| ≤ |F32.scaled c * y - x| ∧
      (|F32.scaled r * y - x| = |F32.scaled c * y - x| → F32.scaled c ≠ F32.scaled r → r.toNat % 2 = 0))

/-- R9 for `sqrt`, resting on the gradual underflow of log 11 (PRESUMED): the root of a finite value whose sign bit is clear is finite
with its sign bit clear, and against every other such value the midpoint of the two lies on the far side of the exact root (compared squared: in units of 2^-149 the root of `u` is the root of
`u * 2^149`). -/
def Obligations.SqrtIsRoundedToNearest : Prop :=
  ∀ nan a : Word, F32.isFinite a = true → F32.signBit a = false →
    let r := F32.scaled (F32.sqrt nan a)
    F32.isFinite (F32.sqrt nan a) = true ∧ F32.signBit (F32.sqrt nan a) = false ∧
    (∀ c : Word, F32.isFinite c = true → F32.signBit c = false →
      (F32.scaled c < r → (F32.scaled c + r) ^ 2 ≤ 4 * (F32.scaled a * 2 ^ 149)) ∧
      (r < F32.scaled c → 4 * (F32.scaled a * 2 ^ 149) ≤ (F32.scaled c + r) ^ 2))

/-- R11 for `fmod`: on finite `x` not negative and finite `y` positive the result is exactly the remainder, not negative, below `y`,
and +0 when zero. -/
def Obligations.FmodIsExact : Prop :=
  ∀ nan x y : Word, F32.isFinite x = true → F32.ge x 0 = true → F32.isFinite y = true → F32.lt 0 y = true →
    F32.isFinite (F32.fmod nan x y) = true ∧ F32.signBit (F32.fmod nan x y) = false ∧
    F32.scaled (F32.fmod nan x y) = F32.scaled x % F32.scaled y ∧ F32.lt (F32.fmod nan x y) y = true

/-- R12: the named properties of SIN and EXP2, which are all the model knows of them; with the limits of EPSILON (R6, D7). -/
def Obligations.ParameterProperties : Prop :=
  SIN 0 = 0 ∧
  (∀ x : Word, F32.isFinite x = true →
    F32.isFinite (SIN x) = true ∧ F32.le 0xBF800000 (SIN x) = true ∧ F32.le (SIN x) 0x3F800000 = true) ∧
  EXP2 0 = 0x3F800000 ∧
  (∀ x : Word, F32.isFinite x = true → F32.le 0xC0C00000 x = true → F32.le x 0x41800000 = true →
    F32.isFinite (EXP2 x) = true ∧ F32.lt 0 (EXP2 x) = true) ∧
  0x00800000 ≤ EPSILON.toNat ∧ EPSILON.toNat < 0x7F800000

/-! ### Invariants (10_state.md section 5) -/

/-- The reset state is legal and its phase is wrapped. -/
def Obligations.ResetIsLegal : Prop := State.reset.legal = true ∧ State.reset.phaseWrapped = true

/-- R34 (a), (c) and (d), with the domains of R25, R31 and R32, the agreement of ERRINFO with the error bits (R23, R106) and a lowish
Gate in Silence and Release (R77, corner case): every step keeps a legal state legal, whatever the host presents. -/
def Obligations.EveryStepKeepsTheStateLegal : Prop :=
  ∀ s t : State, s.legal = true → step s = .next t → t.legal = true

/-- R34 (b), for a finite PHASE_INC (log 1): every step keeps PHASE in [0, TWO_PI) and not −0. -/
def Obligations.EveryStepKeepsThePhaseWrapped : Prop :=
  ∀ s t : State, s.phaseWrapped = true → s.sampleRate ≠ 0 → F32.isFinite s.phaseInc = true → step s = .next t →
    t.phaseWrapped = true

/-! ### Systems and the host contract (20_memory.md R47, 46_host_contract.md) -/

/-- R47: a command issued to one instance changes no other instance, nor the host's state. -/
def Obligations.InstancesShareNothing : Prop :=
  ∀ (y z : System) (k : Nat) (i : Instr), y.issue k i = .ok z →
    z.host = y.host ∧ z.insts.length = y.insts.length ∧ ∀ j, j ≠ k → z.insts[j]? = y.insts[j]?

/-- R96: the velocity curve, its operand clamped on integers; it gives MIX_GAIN exactly at 127 and +0 at 0. -/
def Obligations.VelocityCurve : Prop :=
  (∀ v : Int,
    let r := F32.div hostNaN (F32.ofInt (if v < 0 then 0 else if 127 < v then 127 else v)) 0x42FE0000
    velocityCurve v = F32.mul hostNaN (F32.mul hostNaN r r) MIX_GAIN) ∧
  (∀ v : Int, 127 ≤ v → velocityCurve v = MIX_GAIN) ∧ (∀ v : Int, v ≤ 0 → velocityCurve v = 0)

/-- R98 and R99: the voice of a note is the first live voice, in allocation order, whose instance holds NOTE = `n`; a noteOn for a live
note re-strikes it, sets its timer to 0 and changes nothing else of the host, no other timer among it; a noteOff releases the first
live voice of its note and does nothing where there is none. -/
def Obligations.NotesAreRestruckInPlace : Prop :=
  (∀ (y : System) (n : Byte),
    (∀ voice, y.findVoice n = some voice ↔
      ∃ before after, y.host.live = before ++ voice :: after ∧ (∃ s, y.insts[voice.inst]? = some s ∧ s.note = n) ∧
        ∀ u ∈ before, ∀ s, y.insts[u.inst]? = some s → s.note ≠ n) ∧
    (y.findVoice n = none ↔ ∀ u ∈ y.host.live, ∀ s, y.insts[u.inst]? = some s → s.note ≠ n)) ∧
  (∀ (y : System) (n : Byte) (v : Int) (voice : LiveVoice), y.findVoice n = some voice →
    ∃ z, hostNoteOn y n v = .ok z ∧ y.issue voice.inst (.restrike (velocityCurve v)) = .ok { z with host := y.host } ∧
      z.host = { y.host with
        live := y.host.live.map (fun u => if u.inst = voice.inst then { u with timer := 0 } else u) }) ∧
  (∀ (y : System) (n : Byte) (voice : LiveVoice), y.findVoice n = some voice → hostNoteOff y n = y.issue voice.inst .keyoff) ∧
  (∀ (y : System) (n : Byte), y.findVoice n = none → hostNoteOff y n = .ok y)

/-- R102 with no live voice and nothing queued: the buffer is all +0 and no instance executes a command. -/
def Obligations.RenderingNoVoicesGivesSilence : Prop :=
  ∀ (y : System) (length : Nat), y.host.live = [] → y.host.queue = [] → y.host.uiOn = false →
    ∃ z, renderBuffer length y = .ok z ∧ z.out = List.replicate length 0 ∧ z.system.insts = y.insts ∧
      z.system.host.live = [] ∧ z.system.host.free = y.host.free
end

