-- ==== Sys2Proof/Laws/Rounding.lean ====
section
/-! SUPPORT. What rounding does: `rneDiv`, `roundMag` and `scaledMag` are monotone, a representable value is rounded to itself, and
the result is a nearest value. Every fact about an operation of F32 follows from these. -/

namespace Sys2Proof.Machine.F32

/-! ### Patterns -/

theorem mag_lt (w : Word) : mag w < 2 ^ 31 := Nat.mod_lt _ (by norm_num)

@[simp] theorem mag_pack (s : Bool) (m : Nat) (h : m < 2 ^ 31) : mag (pack s m) = m := by
  unfold mag pack
  rw [BitVec.toNat_ofNat]
  cases s <;> simp <;> omega

@[simp] theorem signBit_pack (s : Bool) (m : Nat) (h : m < 2 ^ 31) : signBit (pack s m) = s := by
  unfold signBit pack
  rw [BitVec.toNat_ofNat]
  cases s <;> simp <;> omega

theorem pack_signBit_mag (w : Word) : pack (signBit w) (mag w) = w := by
  apply BitVec.eq_of_toNat_eq
  unfold pack signBit mag
  rw [BitVec.toNat_ofNat]
  have := w.isLt
  by_cases h : 2 ^ 31 ≤ w.toNat
  · rw [decide_eq_true h, if_pos rfl]; omega
  · rw [decide_eq_false h, if_neg (by simp)]; omega

theorem toNat_eq (w : Word) : w.toNat = (if signBit w then 2 ^ 31 else 0) + mag w := by
  unfold signBit mag
  have := w.isLt
  by_cases h : 2 ^ 31 ≤ w.toNat
  · rw [decide_eq_true h, if_pos rfl]; omega
  · rw [decide_eq_false h, if_neg (by simp)]; omega

/-! ### Division to the nearest integer -/

/-- The rounded quotient is at most `a` exactly when the quotient lies below the midpoint above `a`, or on it with `a` even. -/
theorem rneDiv_le_iff {n d a : Nat} (hd : 0 < d) :
    rneDiv n d ≤ a ↔ 2 * n < (2 * a + 1) * d ∨ (2 * n = (2 * a + 1) * d ∧ a % 2 = 0) := by
  have hn := Nat.div_add_mod n d
  have hr := Nat.mod_lt n hd
  unfold rneDiv
  generalize n / d = q at *
  generalize n % d = r at *
  simp only
  rcases Nat.lt_trichotomy q a with h | h | h
  · have h1 : d * (q + 1) ≤ d * a := Nat.mul_le_mul_left d h
    have h2 : 2 * n < (2 * a + 1) * d := by nlinarith
    constructor
    · intro _; exact Or.inl h2
    · intro _; split_ifs <;> omega
  · subst h
    have e : (2 * q + 1) * d = 2 * (d * q) + d := by ring
    rw [e]
    split_ifs with h1 h2 <;> omega
  · have h1 : d * (a + 1) ≤ d * q := Nat.mul_le_mul_left d h
    have h2 : (2 * a + 1) * d < 2 * n := by nlinarith
    constructor
    · intro h3; split_ifs at h3 <;> omega
    · rintro (h3 | h3) <;> omega

theorem rneDiv_mono {n₁ d₁ n₂ d₂ : Nat} (h₁ : 0 < d₁) (h₂ : 0 < d₂) (h : n₁ * d₂ ≤ n₂ * d₁) :
    rneDiv n₁ d₁ ≤ rneDiv n₂ d₂ := by
  rw [rneDiv_le_iff h₁]
  have := (rneDiv_le_iff (a := rneDiv n₂ d₂) h₂).1 le_rfl
  generalize rneDiv n₂ d₂ = a at *
  rcases this with h3 | ⟨h3, h4⟩
  · left
    have : 2 * n₁ * d₂ < (2 * a + 1) * d₁ * d₂ := by
      calc 2 * n₁ * d₂ ≤ 2 * n₂ * d₁ := by nlinarith
        _ < (2 * a + 1) * d₂ * d₁ := by nlinarith
        _ = (2 * a + 1) * d₁ * d₂ := by ring
    exact Nat.lt_of_mul_lt_mul_right this
  · have : 2 * n₁ * d₂ ≤ (2 * a + 1) * d₁ * d₂ := by
      calc 2 * n₁ * d₂ ≤ 2 * n₂ * d₁ := by nlinarith
        _ = (2 * a + 1) * d₂ * d₁ := by rw [h3]
        _ = (2 * a + 1) * d₁ * d₂ := by ring
    have h5 := Nat.le_of_mul_le_mul_right this h₂
    rcases Nat.lt_or_eq_of_le h5 with h6 | h6
    · exact Or.inl h6
    · exact Or.inr ⟨h6, h4⟩

theorem rneDiv_mul {a d : Nat} (hd : 0 < d) : rneDiv (a * d) d = a := by
  unfold rneDiv
  simp [Nat.mul_div_cancel _ hd, hd]

/-- Twice the dividend is within one divisor of twice the rounded quotient. -/
theorem rneDiv_near {n d : Nat} (hd : 0 < d) :
    2 * n ≤ (2 * rneDiv n d + 1) * d ∧ 2 * rneDiv n d * d ≤ 2 * n + d := by
  have hn := Nat.div_add_mod n d
  have hr := Nat.mod_lt n hd
  unfold rneDiv
  generalize n / d = q at *
  generalize n % d = r at *
  simp only
  split_ifs with h1 h2
  · constructor <;> nlinarith
  · constructor <;> nlinarith
  · rcases Nat.mod_two_eq_zero_or_one q with h3 | h3 <;> rw [h3] <;> constructor <;> nlinarith

/-! ### The significand -/

/-- A quotient of `q` whole units has its leading bit `23 + excess q` places up when it has more than 24 bits. -/
theorem excess_spec (q : Nat) : (excess q = 0 ∧ q < 2 ^ 24) ∨
    (2 ^ (23 + excess q) ≤ q ∧ q < 2 ^ (24 + excess q) ∧ 0 < excess q) := by
  unfold excess
  by_cases h : q < 2 ^ 24
  · left
    refine ⟨?_, h⟩
    have : Nat.log2 q < 24 := by
      by_cases h0 : q = 0
      · subst h0; simp
      · exact (Nat.log2_lt h0).2 h
    omega
  · right
    have h0 : q ≠ 0 := by rintro rfl; simp at h
    have h1 : 24 ≤ Nat.log2 q := by
      by_contra h2
      exact h ((Nat.log2_lt h0).1 (by omega))
    have h3 := Nat.log2_self_le h0
    have h4 := Nat.lt_log2_self (n := q)
    have e1 : 23 + (Nat.log2 q + 1 - 24) = Nat.log2 q := by omega
    have e2 : 24 + (Nat.log2 q + 1 - 24) = Nat.log2 q + 1 := by omega
    rw [e1, e2]
    exact ⟨h3, h4, by omega⟩

theorem excess_mono {a b : Nat} (h : a ≤ b) : excess a ≤ excess b := by
  unfold excess
  have : Nat.log2 a ≤ Nat.log2 b := by
    by_cases ha : a = 0
    · subst ha; simp
    · rw [Nat.log2_eq_log_two, Nat.log2_eq_log_two]
      exact Nat.log_mono_right h
  omega

/-- The value of the magnitude pattern of a significand of `m` units of `2 ^ k`. -/
theorem scaledMag_pack {k m : Nat} (h : (k = 0 ∧ m ≤ 2 ^ 24) ∨ (2 ^ 23 ≤ m ∧ m ≤ 2 ^ 24)) :
    scaledMag (k * 2 ^ 23 + m) = m * 2 ^ k := by
  unfold scaledMag expField
  by_cases h1 : m < 2 ^ 23
  · have hk : k = 0 := by omega
    subst hk
    have e : (0 * 2 ^ 23 + m) / 2 ^ 23 = 0 := by omega
    rw [if_pos e]; simp; omega
  · by_cases h2 : m = 2 ^ 24
    · subst h2
      have e1 : (k * 2 ^ 23 + 2 ^ 24) / 2 ^ 23 = k + 2 := by omega
      have e2 : (k * 2 ^ 23 + 2 ^ 24) % 2 ^ 23 = 0 := by omega
      rw [if_neg (by omega), e1, e2]
      have : k + 2 - 1 = k + 1 := by omega
      rw [this, pow_succ 2 k]; ring
    · have e1 : (k * 2 ^ 23 + m) / 2 ^ 23 = k + 1 := by omega
      have e2 : 2 ^ 23 + (k * 2 ^ 23 + m) % 2 ^ 23 = m := by omega
      rw [if_neg (by omega), e1, e2]
      simp

/-- Every magnitude pattern is a significand with an exponent. -/
theorem mag_split (m : Nat) : ∃ k f, m = k * 2 ^ 23 + f ∧ ((k = 0 ∧ f < 2 ^ 24) ∨ (2 ^ 23 ≤ f ∧ f < 2 ^ 24)) := by
  by_cases h : m < 2 ^ 23
  · exact ⟨0, m, by omega, Or.inl ⟨rfl, by omega⟩⟩
  · refine ⟨m / 2 ^ 23 - 1, 2 ^ 23 + m % 2 ^ 23, ?_, Or.inr ⟨by omega, ?_⟩⟩
    · have := Nat.div_add_mod m (2 ^ 23)
      have : 1 ≤ m / 2 ^ 23 := by omega
      omega
    · have := Nat.mod_lt m (show 0 < 2 ^ 23 by norm_num)
      omega

theorem scaledMag_succ (m : Nat) : scaledMag m < scaledMag (m + 1) := by
  obtain ⟨k, f, rfl, h⟩ := mag_split m
  rw [scaledMag_pack (by omega), show k * 2 ^ 23 + f + 1 = k * 2 ^ 23 + (f + 1) by ring, scaledMag_pack (by omega)]
  exact Nat.mul_lt_mul_of_pos_right (by omega) (by positivity)

theorem scaledMag_strictMono : StrictMono scaledMag := strictMono_nat_of_lt_succ scaledMag_succ

theorem scaledMag_le_iff {a b : Nat} : scaledMag a ≤ scaledMag b ↔ a ≤ b := scaledMag_strictMono.le_iff_le

theorem scaledMag_lt_iff {a b : Nat} : scaledMag a < scaledMag b ↔ a < b := scaledMag_strictMono.lt_iff_lt

@[simp] theorem scaledMag_zero : scaledMag 0 = 0 := by decide

theorem scaledMag_pos {m : Nat} : 0 < scaledMag m ↔ 0 < m := by
  have := scaledMag_lt_iff (a := 0) (b := m)
  rwa [scaledMag_zero] at this

/-! ### Rounding a ratio -/

/-- The significand that `roundMag` packs: at most 2^24, and with its leading bit when low bits were dropped. -/
theorem round_significand {num den : Nat} (hd : 0 < den) :
    let k := excess (num / den)
    let m := rneDiv num (den * 2 ^ k)
    (k = 0 ∧ m ≤ 2 ^ 24) ∨ (2 ^ 23 ≤ m ∧ m ≤ 2 ^ 24 ∧ den * 2 ^ (23 + k) ≤ num) := by
  intro k m
  have hup : ∀ K, num / den < 2 ^ (24 + K) → rneDiv num (den * 2 ^ K) ≤ 2 ^ 24 := by
    intro K hq
    rw [rneDiv_le_iff (by positivity)]
    left
    have h1 : num < den * 2 ^ (24 + K) := (Nat.div_lt_iff_lt_mul hd).1 hq |>.trans_eq (by ring)
    have : 0 < den * 2 ^ K := by positivity
    rw [pow_add] at h1
    nlinarith
  rcases excess_spec (num / den) with ⟨h1, h2⟩ | ⟨h1, h2, h3⟩
  · left
    refine ⟨h1, ?_⟩
    apply hup
    have : k = 0 := h1
    rw [this]; exact h2
  · right
    have h4 : den * 2 ^ (23 + k) ≤ num := by
      have := (Nat.le_div_iff_mul_le hd).1 h1
      linarith [Nat.mul_comm den (2 ^ (23 + k))]
    refine ⟨?_, hup k h2, h4⟩
    have h5 : rneDiv (2 ^ 23 * (den * 2 ^ k)) (den * 2 ^ k) ≤ rneDiv num (den * 2 ^ k) := by
      apply rneDiv_mono (by positivity) (by positivity)
      apply Nat.mul_le_mul_right
      calc 2 ^ 23 * (den * 2 ^ k) = den * 2 ^ (23 + k) := by rw [pow_add]; ring
        _ ≤ num := h4
    rwa [rneDiv_mul (by positivity)] at h5

theorem packMag_le (k m : Nat) : packMag k m ≤ infMag := by unfold packMag; omega

theorem roundMag_le (num den : Nat) : roundMag num den ≤ infMag := packMag_le _ _

/-- A larger value is rounded no lower. -/
theorem roundMag_mono {n₁ d₁ n₂ d₂ : Nat} (h₁ : 0 < d₁) (h₂ : 0 < d₂) (h : n₁ * d₂ ≤ n₂ * d₁) :
    roundMag n₁ d₁ ≤ roundMag n₂ d₂ := by
  have hq : n₁ / d₁ ≤ n₂ / d₂ := by
    rw [Nat.le_div_iff_mul_le h₂]
    have h3 : n₁ / d₁ * d₂ * d₁ ≤ n₂ * d₁ := by
      calc n₁ / d₁ * d₂ * d₁ = n₁ / d₁ * d₁ * d₂ := by ring
        _ ≤ n₁ * d₂ := Nat.mul_le_mul_right _ (Nat.div_mul_le_self n₁ d₁)
        _ ≤ n₂ * d₁ := h
    exact Nat.le_of_mul_le_mul_right h3 h₁
  have hk := excess_mono hq
  have s1 := round_significand (num := n₁) h₁
  have s2 := round_significand (num := n₂) h₂
  have hm : excess (n₁ / d₁) = excess (n₂ / d₂) →
      rneDiv n₁ (d₁ * 2 ^ excess (n₁ / d₁)) ≤ rneDiv n₂ (d₂ * 2 ^ excess (n₂ / d₂)) := by
    intro heq
    rw [← heq]
    apply rneDiv_mono (by positivity) (by positivity)
    calc n₁ * (d₂ * 2 ^ excess (n₁ / d₁)) = n₁ * d₂ * 2 ^ excess (n₁ / d₁) := by ring
      _ ≤ n₂ * d₁ * 2 ^ excess (n₁ / d₁) := Nat.mul_le_mul_right _ h
      _ = n₂ * (d₁ * 2 ^ excess (n₁ / d₁)) := by ring
  unfold roundMag packMag
  simp only at s1 s2 ⊢
  generalize rneDiv n₁ (d₁ * 2 ^ excess (n₁ / d₁)) = m₁ at *
  generalize rneDiv n₂ (d₂ * 2 ^ excess (n₂ / d₂)) = m₂ at *
  generalize excess (n₁ / d₁) = k₁ at *
  generalize excess (n₂ / d₂) = k₂ at *
  have s1' : m₁ ≤ 2 ^ 24 := s1.elim (fun s => s.2) (fun s => s.2.1)
  have s2' : k₂ = 0 ∨ 2 ^ 23 ≤ m₂ := by
    rcases s2 with s | s
    · exact Or.inl s.1
    · exact Or.inr s.1
  clear s1 s2 h hq
  have : k₁ * 2 ^ 23 + m₁ ≤ k₂ * 2 ^ 23 + m₂ := by
    rcases Nat.lt_or_eq_of_le hk with hlt | heq
    · have : (k₁ + 1) * 2 ^ 23 ≤ k₂ * 2 ^ 23 := Nat.mul_le_mul_right _ hlt
      omega
    · rw [heq]; exact Nat.add_le_add_left (hm heq) _
  exact min_le_min_right _ this

/-- A representable value is rounded to itself. -/
theorem roundMag_scaledMag {m d : Nat} (hd : 0 < d) (hm : m ≤ infMag) : roundMag (scaledMag m * d) d = m := by
  unfold roundMag packMag
  simp only [Nat.mul_div_cancel _ hd]
  obtain ⟨k, f, rfl, h⟩ := mag_split m
  rw [scaledMag_pack (by omega)]
  have hk : excess (f * 2 ^ k) = k := by
    unfold excess
    rcases h with ⟨rfl, hf⟩ | ⟨h1, h2⟩
    · simp only [pow_zero, mul_one]
      have : Nat.log2 f < 24 := by
        by_cases h0 : f = 0
        · subst h0; simp
        · exact (Nat.log2_lt h0).2 hf
      omega
    · have h0 : f * 2 ^ k ≠ 0 := by positivity
      have e : Nat.log2 (f * 2 ^ k) = 23 + k := by
        rw [Nat.log2_eq_iff h0]
        constructor
        · rw [pow_add]; exact Nat.mul_le_mul_right _ h1
        · rw [show 23 + k + 1 = 24 + k by ring, pow_add]
          exact Nat.mul_lt_mul_of_pos_right h2 (by positivity)
      omega
  rw [hk, show f * 2 ^ k * d = f * (d * 2 ^ k) by ring, rneDiv_mul (by positivity)]
  omega

/-- A value at most a representable one is rounded to at most it. -/
theorem roundMag_le_of_le {num den b : Nat} (hd : 0 < den) (hb : b ≤ infMag) (h : num ≤ scaledMag b * den) :
    roundMag num den ≤ b := by
  have := roundMag_mono (n₁ := num) (d₁ := den) (n₂ := scaledMag b * 1) (d₂ := 1) hd one_pos (by simpa using h)
  rwa [roundMag_scaledMag one_pos hb] at this

/-- A value at least a representable one is rounded to at least it. -/
theorem le_roundMag_of_le {num den b : Nat} (hd : 0 < den) (hb : b ≤ infMag) (h : scaledMag b * den ≤ num) :
    b ≤ roundMag num den := by
  have := roundMag_mono (n₁ := scaledMag b * 1) (d₁ := 1) (n₂ := num) (d₂ := den) one_pos hd (by simpa using h)
  rwa [roundMag_scaledMag one_pos hb] at this

@[simp] theorem roundMag_zero (den : Nat) : roundMag 0 den = 0 := by
  simp [roundMag, packMag, rneDiv, excess]

/-- A finite rounded value and any other finite value have their midpoint on the far side of the exact value. -/
theorem roundMag_midpoint {num den c : Nat} (hd : 0 < den) (hr : roundMag num den < infMag) :
    (c < roundMag num den → (scaledMag c + scaledMag (roundMag num den)) * den ≤ 2 * num) ∧
    (roundMag num den < c → 2 * num ≤ (scaledMag c + scaledMag (roundMag num den)) * den) := by
  have hs := round_significand (num := num) hd
  have hr' : roundMag num den = excess (num / den) * 2 ^ 23 + rneDiv num (den * 2 ^ excess (num / den)) := by
    unfold roundMag packMag at hr ⊢
    simp only at hr ⊢
    omega
  simp only at hs
  obtain ⟨hn1, hn2⟩ := rneDiv_near (n := num) (d := den * 2 ^ excess (num / den)) (by positivity)
  rw [hr'] at *
  generalize rneDiv num (den * 2 ^ excess (num / den)) = m at *
  generalize excess (num / den) = k at *
  have hsr : scaledMag (k * 2 ^ 23 + m) = m * 2 ^ k := scaledMag_pack (by omega)
  constructor
  · intro hc
    have h1 : scaledMag c ≤ scaledMag (k * 2 ^ 23 + m - 1) := scaledMag_le_iff.2 (by omega)
    rw [hsr]
    have hpos : 0 < den * 2 ^ k := by positivity
    by_cases hlow : k = 0 ∨ 2 ^ 23 < m
    · have h0 : 0 < m ∨ 0 < k := by omega
      have hm0 : 0 < m := by omega
      have h2 : scaledMag (k * 2 ^ 23 + m - 1) = (m - 1) * 2 ^ k := by
        rw [show k * 2 ^ 23 + m - 1 = k * 2 ^ 23 + (m - 1) by omega]
        exact scaledMag_pack (by omega)
      rw [h2] at h1
      obtain ⟨j, rfl⟩ : ∃ j, m = j + 1 := ⟨m - 1, by omega⟩
      simp only [Nat.add_sub_cancel] at h1
      calc (scaledMag c + (j + 1) * 2 ^ k) * den ≤ (j * 2 ^ k + (j + 1) * 2 ^ k) * den := by gcongr
        _ = 2 * (j + 1) * (den * 2 ^ k) - den * 2 ^ k := by
          rw [show 2 * (j + 1) * (den * 2 ^ k) = (j * 2 ^ k + (j + 1) * 2 ^ k) * den + den * 2 ^ k by ring]
          omega
        _ ≤ 2 * num := by omega
    · have hm : m = 2 ^ 23 := by omega
      subst hm
      have hnum : den * 2 ^ (23 + k) ≤ num := by omega
      have h2 : scaledMag c ≤ 2 ^ 23 * 2 ^ k := by
        rw [← hsr]; exact scaledMag_le_iff.2 hc.le
      calc (scaledMag c + 2 ^ 23 * 2 ^ k) * den ≤ (2 ^ 23 * 2 ^ k + 2 ^ 23 * 2 ^ k) * den := by gcongr
        _ = 2 * (den * 2 ^ (23 + k)) := by rw [pow_add]; ring
        _ ≤ 2 * num := by omega
  · intro hc
    have h1 : scaledMag (k * 2 ^ 23 + m + 1) ≤ scaledMag c := scaledMag_le_iff.2 (by omega)
    have h2 : (m + 1) * 2 ^ k ≤ scaledMag (k * 2 ^ 23 + m + 1) := by
      by_cases hm : m = 2 ^ 24
      · subst hm
        rw [show k * 2 ^ 23 + 2 ^ 24 + 1 = (k + 1) * 2 ^ 23 + (2 ^ 23 + 1) by ring, scaledMag_pack (by omega), pow_succ 2 k]
        have e : (2 ^ 23 + 1) * (2 ^ k * 2) = (2 ^ 24 + 2) * 2 ^ k := by ring
        rw [e]
        exact Nat.mul_le_mul_right _ (by norm_num)
      · rw [show k * 2 ^ 23 + m + 1 = k * 2 ^ 23 + (m + 1) by ring, scaledMag_pack (by omega)]
    rw [hsr]
    calc 2 * num ≤ (2 * m + 1) * (den * 2 ^ k) := hn1
      _ = ((m + 1) * 2 ^ k + m * 2 ^ k) * den := by ring
      _ ≤ (scaledMag c + m * 2 ^ k) * den := by gcongr; omega

/-- The least exact value, in units of 2^-149, that is rounded to the infinity: half an ulp past the largest finite value. -/
theorem roundMag_overflow {num den : Nat} (hd : 0 < den) :
    roundMag num den = infMag ↔ (2 ^ 277 - 2 ^ 252) * den ≤ num := by
  constructor
  · intro h
    by_contra hc
    rw [not_le] at hc
    have hq : num / den < 2 ^ 277 := by
      rw [Nat.div_lt_iff_lt_mul hd]
      exact lt_of_lt_of_le hc (Nat.mul_le_mul_right _ (Nat.sub_le _ _))
    have hk : excess (num / den) ≤ 253 := by
      rcases excess_spec (num / den) with ⟨h0, _⟩ | ⟨h1, _, _⟩
      · omega
      · have h2 : 2 ^ (23 + excess (num / den)) < 2 ^ 277 := lt_of_le_of_lt h1 hq
        have := (Nat.pow_lt_pow_iff_right (by norm_num : 1 < 2)).1 h2
        omega
    have hs := round_significand (num := num) hd
    simp only at hs
    have hr : roundMag num den < infMag := by
      unfold roundMag packMag
      simp only
      by_cases h252 : excess (num / den) ≤ 252
      · unfold infMag; omega
      · have hk' : excess (num / den) = 253 := by omega
        rw [hk'] at hs ⊢
        have hm : rneDiv num (den * 2 ^ 253) ≤ 2 ^ 24 - 1 := by
          rw [rneDiv_le_iff (Nat.mul_pos hd (Nat.two_pow_pos _))]
          left
          have e : (2 * (2 ^ 24 - 1) + 1) * (den * 2 ^ 253) = 2 * ((2 ^ 277 - 2 ^ 252) * den) := by
            have e1 : (2 * (2 ^ 24 - 1) + 1) * 2 ^ 253 = 2 * (2 ^ 277 - 2 ^ 252) := by decide +kernel
            calc (2 * (2 ^ 24 - 1) + 1) * (den * 2 ^ 253) = ((2 * (2 ^ 24 - 1) + 1) * 2 ^ 253) * den := by ring
              _ = _ := by rw [e1]; ring
          rw [e]
          omega
        unfold infMag; omega
    omega
  · intro h
    apply le_antisymm (roundMag_le _ _)
    have h1 : roundMag ((2 ^ 277 - 2 ^ 252) * 1) 1 = infMag := by decide +kernel
    rw [← h1]
    exact roundMag_mono one_pos hd (by rw [Nat.mul_one]; simpa using h)

/-- On a tie the rounded magnitude is even. -/
theorem roundMag_tie {num den c : Nat} (hd : 0 < den) (hr : roundMag num den < infMag) (hc : c ≠ roundMag num den)
    (ht : 2 * num = (scaledMag c + scaledMag (roundMag num den)) * den) : roundMag num den % 2 = 0 := by
  have hs := round_significand (num := num) hd
  have hr' : roundMag num den = excess (num / den) * 2 ^ 23 + rneDiv num (den * 2 ^ excess (num / den)) := by
    unfold roundMag packMag at hr ⊢
    simp only at hr ⊢
    omega
  simp only at hs
  have hD : 0 < den * 2 ^ excess (num / den) := Nat.mul_pos hd (Nat.two_pow_pos _)
  have hle := fun a => rneDiv_le_iff (n := num) (a := a) hD
  have hlo := fun h : 0 < roundMag num den => (roundMag_midpoint (c := roundMag num den - 1) hd hr).1 (by omega)
  have hhi := (roundMag_midpoint (c := roundMag num den + 1) hd hr).2 (by omega)
  generalize roundMag num den = r at *
  generalize rneDiv num (den * 2 ^ excess (num / den)) = m at *
  generalize excess (num / den) = k at *
  subst hr'
  have hsr : scaledMag (k * 2 ^ 23 + m) = m * 2 ^ k := scaledMag_pack (by omega)
  rcases Nat.lt_or_gt_of_ne hc with hlt | hgt
  · have h1 := hlo (by omega)
    rw [ht] at h1
    have h2 : scaledMag (k * 2 ^ 23 + m - 1) ≤ scaledMag c := by
      have := Nat.le_of_mul_le_mul_right h1 hd
      omega
    have h3 : c = k * 2 ^ 23 + m - 1 := by
      have := scaledMag_le_iff.1 h2
      omega
    by_cases hlow : k = 0 ∨ 2 ^ 23 < m
    · have hm0 : 0 < m := by omega
      have h4 : scaledMag c = (m - 1) * 2 ^ k := by
        rw [h3, show k * 2 ^ 23 + m - 1 = k * 2 ^ 23 + (m - 1) by omega]
        exact scaledMag_pack (by omega)
      obtain ⟨j, rfl⟩ : ∃ j, m = j + 1 := ⟨m - 1, by omega⟩
      have h5 : 2 * num = (2 * j + 1) * (den * 2 ^ k) := by
        rw [ht, h4, hsr]; simp only [Nat.add_sub_cancel]; ring
      have h6 := (hle j).2
      have : j % 2 ≠ 0 := fun h => by have := h6 (Or.inr ⟨h5, h⟩); omega
      omega
    · omega
  · have h1 := hhi
    rw [ht] at h1
    have h2 : scaledMag c ≤ scaledMag (k * 2 ^ 23 + m + 1) := by
      have := Nat.le_of_mul_le_mul_right h1 hd
      omega
    have h3 : c = k * 2 ^ 23 + m + 1 := by
      have := scaledMag_le_iff.1 h2
      omega
    by_cases hm : m = 2 ^ 24
    · omega
    · have h4 : scaledMag c = (m + 1) * 2 ^ k := by
        rw [h3, show k * 2 ^ 23 + m + 1 = k * 2 ^ 23 + (m + 1) by ring]
        exact scaledMag_pack (by omega)
      have h5 : 2 * num = (2 * m + 1) * (den * 2 ^ k) := by rw [ht, h4, hsr]; ring
      rcases (hle m).1 le_rfl with h | ⟨_, h⟩ <;> omega

end Sys2Proof.Machine.F32
end

