-- ==== Sys2Proof/Laws/Remainder.lean ====
section
/-! SUPPORT. The remainder of two finite values is itself a binary32 value, so `fmod` rounds nothing (R11). -/

namespace Sys2Proof.Machine.F32

/-- A significand of fewer than 24 bits at any exponent is a binary32 magnitude (which may be past the finite ones). -/
theorem exists_mag_of_lt (j : Nat) : ∀ c, c < 2 ^ 24 → ∃ m, scaledMag m = c * 2 ^ j := by
  induction j with
  | zero => exact fun c hc => ⟨0 * 2 ^ 23 + c, by rw [scaledMag_pack (Or.inl ⟨rfl, hc.le⟩)]⟩
  | succ j ih =>
    intro c hc
    by_cases h : c < 2 ^ 23
    · obtain ⟨m, hm⟩ := ih (2 * c) (by omega)
      exact ⟨m, by rw [hm, pow_succ]; ring⟩
    · exact ⟨(j + 1) * 2 ^ 23 + c, scaledMag_pack (Or.inr ⟨by omega, by omega⟩)⟩

/-- The remainder of two magnitudes is a magnitude below the divisor. -/
theorem exists_mag_mod (a b : Nat) (hb : 0 < b) : ∃ m < b, scaledMag a % scaledMag b = scaledMag m := by
  have hpos : 0 < scaledMag b := scaledMag_pos.2 hb
  have hlt := Nat.mod_lt (scaledMag a) hpos
  suffices h : ∃ m, scaledMag m = scaledMag a % scaledMag b by
    obtain ⟨m, hm⟩ := h
    rw [← hm] at hlt
    exact ⟨m, scaledMag_lt_iff.1 hlt, hm.symm⟩
  obtain ⟨i, f, rfl, hf⟩ := mag_split a
  obtain ⟨j, g, rfl, hg⟩ := mag_split b
  have ea : scaledMag (i * 2 ^ 23 + f) = f * 2 ^ i := scaledMag_pack (by omega)
  have eb : scaledMag (j * 2 ^ 23 + g) = g * 2 ^ j := scaledMag_pack (by omega)
  rw [eb] at hpos
  rw [ea, eb]
  by_cases hij : j ≤ i
  · obtain ⟨d, rfl⟩ := Nat.exists_eq_add_of_le hij
    have hg0 : 0 < g := Nat.pos_of_ne_zero (by rintro rfl; simp at hpos)
    have e : f * 2 ^ (j + d) % (g * 2 ^ j) = (f * 2 ^ d % g) * 2 ^ j := by
      rw [pow_add, show f * (2 ^ j * 2 ^ d) = (f * 2 ^ d) * 2 ^ j by ring, Nat.mul_mod_mul_right]
    rw [e]
    exact exists_mag_of_lt j _ (lt_trans (Nat.mod_lt _ hg0) (by omega))
  · have hsmall : f * 2 ^ i < g * 2 ^ j := by
      obtain ⟨d, rfl⟩ := Nat.exists_eq_add_of_lt (not_le.1 hij)
      have hg1 : 2 ^ 23 ≤ g := by omega
      calc f * 2 ^ i < 2 ^ 24 * 2 ^ i := Nat.mul_lt_mul_of_pos_right (by omega) (by positivity)
        _ = 2 ^ 23 * 2 ^ (i + 1) := by rw [pow_succ]; ring
        _ ≤ g * 2 ^ (i + d + 1) := Nat.mul_le_mul hg1 (Nat.pow_le_pow_right (by norm_num) (by omega))
    rw [Nat.mod_eq_of_lt hsmall]
    exact exists_mag_of_lt i f (by omega)

/-- Rounding the remainder of two magnitudes gives it back: it is exact, and below the divisor. -/
theorem roundMag_mod {a b : Nat} (hb : 0 < b) (hf : b ≤ infMag) :
    scaledMag (roundMag (scaledMag a % scaledMag b) 1) = scaledMag a % scaledMag b ∧
    roundMag (scaledMag a % scaledMag b) 1 < b := by
  obtain ⟨m, hm, e⟩ := exists_mag_mod a b hb
  have := roundMag_scaledMag (m := m) one_pos (by omega)
  rw [mul_one] at this
  rw [e, this]
  exact ⟨rfl, hm⟩

end Sys2Proof.Machine.F32
end

