-- ==== Sys2Proof/Laws/SquareRoot.lean ====
section
/-! SUPPORT. The integer square root is exact, and the rounded square root is a nearest value, monotone where the model needs it. -/

namespace Sys2Proof.Machine.F32

/-- `floorSqrt` is the integer square root of every number its fuel can hold. -/
theorem floorSqrt_spec (fuel n : Nat) (h : n < 4 ^ fuel) :
    floorSqrt fuel n * floorSqrt fuel n ≤ n ∧ n < (floorSqrt fuel n + 1) * (floorSqrt fuel n + 1) := by
  induction fuel generalizing n with
  | zero => simp [floorSqrt] at *; omega
  | succ fuel ih =>
    have hd : n / 4 < 4 ^ fuel := by rw [pow_succ] at h; omega
    obtain ⟨h1, h2⟩ := ih (n / 4) hd
    unfold floorSqrt
    simp only
    generalize floorSqrt fuel (n / 4) = r at *
    have h3 : 4 * (n / 4) ≤ n ∧ n < 4 * (n / 4) + 4 := by omega
    split_ifs with h4
    · exact ⟨h4, by nlinarith⟩
    · exact ⟨by nlinarith, by omega⟩

/-- What the radicands of the model stay below. -/
@[irreducible] def radicandLimit : Nat := 4 ^ 214

theorem radicandLimit_eq : radicandLimit = 4 ^ 214 := by unfold radicandLimit; rfl

theorem root_spec {n : Nat} (h : n < radicandLimit) : root n * root n ≤ n ∧ n < (root n + 1) * (root n + 1) :=
  floorSqrt_spec 214 n (by rwa [radicandLimit_eq] at h)

theorem root_le {n a : Nat} (h : n < radicandLimit) (ha : n < (a + 1) * (a + 1)) : root n ≤ a := by
  obtain ⟨h1, _⟩ := root_spec h
  by_contra hc
  have : (a + 1) * (a + 1) ≤ root n * root n := Nat.mul_self_le_mul_self_iff.2 (by omega)
  omega

theorem unit_sq : unit * unit = 2 ^ 298 := by unfold unit; rw [← pow_add]

/-- Every binary32 value has fewer units than the square root can hold. -/
theorem scaledMag_mul_unit_lt {m : Nat} (h : m < infMag) : scaledMag m * unit < radicandLimit := by
  have h1 : scaledMag m < scaledMag infMag := scaledMag_lt_iff.2 h
  have h2 : scaledMag infMag = 2 ^ 277 := by decide +kernel
  rw [h2] at h1
  rw [radicandLimit_eq]
  calc scaledMag m * unit < 2 ^ 277 * unit := Nat.mul_lt_mul_of_pos_right h1 (by unfold unit; positivity)
    _ ≤ 4 ^ 214 := by decide +kernel

theorem sq_le_sq_iff {a b : Nat} : a * a ≤ b * b ↔ a ≤ b := Nat.mul_self_le_mul_self_iff

/-- The rounded root is at most `a` exactly when the radicand lies below the square of the midpoint above `a`, or on it with `a`
even. -/
theorem rneSqrt_le_iff {n k a : Nat} (h : n < radicandLimit) :
    rneSqrt n k ≤ a ↔ 4 * n < (2 * a + 1) * (2 * a + 1) * 4 ^ k ∨ (4 * n = (2 * a + 1) * (2 * a + 1) * 4 ^ k ∧ a % 2 = 0) := by
  have hp : 0 < 4 ^ k := by positivity
  obtain ⟨h1, h2⟩ := root_spec (lt_of_le_of_lt (Nat.div_le_self _ _) h)
  have h3 := (Nat.le_div_iff_mul_le hp).1 h1
  have h4 := (Nat.div_lt_iff_lt_mul hp).1 h2
  unfold rneSqrt
  simp only
  generalize root (n / 4 ^ k) = m at *
  generalize 4 ^ k = p at *
  rcases Nat.lt_trichotomy m a with hma | hma | hma
  · have h5 : (m + 1) * (m + 1) ≤ a * a := sq_le_sq_iff.2 hma
    have h6 : n < a * a * p := lt_of_lt_of_le h4 (Nat.mul_le_mul_right p h5)
    have h7 : 4 * n < (2 * a + 1) * (2 * a + 1) * p := by nlinarith
    constructor
    · intro _; exact Or.inl h7
    · intro _; split_ifs <;> omega
  · subst hma
    split_ifs with h5 h6 <;> omega
  · have h5 : (a + 1) * (a + 1) ≤ m * m := sq_le_sq_iff.2 hma
    have h6 : (a + 1) * (a + 1) * p ≤ n := le_trans (Nat.mul_le_mul_right p h5) h3
    have h7 : (2 * a + 1) * (2 * a + 1) * p < 4 * n := by nlinarith
    constructor
    · intro h8; split_ifs at h8 <;> omega
    · rintro (h8 | h8) <;> omega

/-- The significand that `sqrtMag` packs. -/
theorem sqrt_significand {n : Nat} (h : n < radicandLimit) :
    let k := excess (root n)
    let m := rneSqrt n k
    (k = 0 ∧ m ≤ 2 ^ 24) ∨ (2 ^ 23 ≤ m ∧ m ≤ 2 ^ 24 ∧ 2 ^ (23 + k) * 2 ^ (23 + k) ≤ n) := by
  intro k m
  obtain ⟨h1, h2⟩ := root_spec h
  have hup : ∀ K, root n < 2 ^ (24 + K) → rneSqrt n K ≤ 2 ^ 24 := by
    intro K hq
    rw [rneSqrt_le_iff h]
    left
    have h3 : (root n + 1) * (root n + 1) ≤ 2 ^ (24 + K) * 2 ^ (24 + K) := sq_le_sq_iff.2 hq
    have e : 2 ^ (24 + K) * 2 ^ (24 + K) = 2 ^ 48 * 4 ^ K := by
      rw [show (4 : Nat) = 2 ^ 2 by norm_num, ← pow_mul, ← pow_add, ← pow_add]; congr 1; ring
    have hp : 0 < 4 ^ K := by positivity
    rw [e] at h3
    generalize 4 ^ K = p at *
    have : n < 2 ^ 48 * p := lt_of_lt_of_le h2 h3
    have e2 : (2 * 2 ^ 24 + 1) * (2 * 2 ^ 24 + 1) * p = 4 * (2 ^ 48 * p) + (2 ^ 26 + 1) * p := by ring
    rw [e2]; omega
  rcases excess_spec (root n) with ⟨e1, e2⟩ | ⟨e1, e2, e3⟩
  · left
    refine ⟨e1, hup k ?_⟩
    have : k = 0 := e1
    rw [this]; exact e2
  · right
    have h4 : 2 ^ (23 + k) * 2 ^ (23 + k) ≤ n := le_trans (sq_le_sq_iff.2 e1) h1
    refine ⟨?_, hup k e2, h4⟩
    by_contra hc
    have h5 : rneSqrt n k ≤ 8388607 := by omega
    rw [rneSqrt_le_iff h] at h5
    norm_num at h5
    have e : 2 ^ (23 + k) * 2 ^ (23 + k) = 2 ^ 46 * 4 ^ k := by
      rw [show (4 : Nat) = 2 ^ 2 by norm_num, ← pow_mul, ← pow_add, ← pow_add]; congr 1; ring
    rw [e] at h4
    have hp : 0 < 4 ^ k := by positivity
    generalize 4 ^ k = p at *
    omega

/-- A finite rounded root and any other finite value have their midpoint on the far side of the exact root (squared, so that it
is a statement about integers). -/
theorem sqrtMag_midpoint {u c : Nat} (h : u * unit < radicandLimit) (hr : sqrtMag u < infMag) :
    (c < sqrtMag u → (scaledMag c + scaledMag (sqrtMag u)) * (scaledMag c + scaledMag (sqrtMag u)) ≤ 4 * (u * unit)) ∧
    (sqrtMag u < c → 4 * (u * unit) ≤ (scaledMag c + scaledMag (sqrtMag u)) * (scaledMag c + scaledMag (sqrtMag u))) := by
  have hs := sqrt_significand h
  have hr' : sqrtMag u = excess (root (u * unit)) * 2 ^ 23 +
      rneSqrt (u * unit) (excess (root (u * unit))) := by
    unfold sqrtMag packMag at hr ⊢
    simp only at hr ⊢
    omega
  simp only at hs
  have hlo : ∀ a, a < rneSqrt (u * unit) (excess (root (u * unit))) →
      (2 * a + 1) * (2 * a + 1) * 4 ^ excess (root (u * unit)) ≤ 4 * (u * unit) := by
    intro a ha
    have := mt (rneSqrt_le_iff (a := a) (k := excess (root (u * unit))) h).2 (by omega)
    omega
  have hhi := (rneSqrt_le_iff (a := rneSqrt (u * unit) (excess (root (u * unit))))
      (k := excess (root (u * unit))) h).1 le_rfl
  rw [hr'] at *
  generalize rneSqrt (u * unit) (excess (root (u * unit))) = m at *
  generalize excess (root (u * unit)) = k at *
  generalize u * unit = n at *
  have hsr : scaledMag (k * 2 ^ 23 + m) = m * 2 ^ k := scaledMag_pack (by omega)
  have e4 : (4 : Nat) ^ k = 2 ^ k * 2 ^ k := by rw [show (4 : Nat) = 2 * 2 by norm_num, mul_pow]
  constructor
  · intro hc
    have h1 : scaledMag c ≤ scaledMag (k * 2 ^ 23 + m - 1) := scaledMag_le_iff.2 (by omega)
    rw [hsr]
    by_cases hlow : k = 0 ∨ 2 ^ 23 < m
    · have hm0 : 0 < m := by omega
      obtain ⟨j, rfl⟩ : ∃ j, m = j + 1 := ⟨m - 1, by omega⟩
      have h2 : scaledMag (k * 2 ^ 23 + (j + 1) - 1) = j * 2 ^ k := by
        rw [show k * 2 ^ 23 + (j + 1) - 1 = k * 2 ^ 23 + j by omega]
        exact scaledMag_pack (by omega)
      rw [h2] at h1
      have h3 := hlo j (by omega)
      have h4 : scaledMag c + (j + 1) * 2 ^ k ≤ (2 * j + 1) * 2 ^ k := by nlinarith
      calc (scaledMag c + (j + 1) * 2 ^ k) * (scaledMag c + (j + 1) * 2 ^ k)
          ≤ ((2 * j + 1) * 2 ^ k) * ((2 * j + 1) * 2 ^ k) := Nat.mul_le_mul h4 h4
        _ = (2 * j + 1) * (2 * j + 1) * 4 ^ k := by rw [e4]; ring
        _ ≤ 4 * n := h3
    · have hm : m = 2 ^ 23 := by omega
      have hnum : 2 ^ (23 + k) * 2 ^ (23 + k) ≤ n := by
        rcases hs with ⟨h3, _⟩ | ⟨_, _, h3⟩
        · exact absurd (Or.inl h3) hlow
        · exact h3
      have e23 : m * 2 ^ k = 2 ^ (23 + k) := by rw [hm, pow_add]
      have h2 : scaledMag c ≤ m * 2 ^ k := by
        rw [← hsr]; exact scaledMag_le_iff.2 hc.le
      rw [e23] at h2 ⊢
      generalize 2 ^ (23 + k) = q at *
      have h4 : scaledMag c + q ≤ 2 * q := by omega
      calc (scaledMag c + q) * (scaledMag c + q) ≤ (2 * q) * (2 * q) := Nat.mul_le_mul h4 h4
        _ = 4 * (q * q) := by ring
        _ ≤ 4 * n := by omega
  · intro hc
    have h1 : scaledMag (k * 2 ^ 23 + m + 1) ≤ scaledMag c := scaledMag_le_iff.2 (by omega)
    have h2 : (m + 1) * 2 ^ k ≤ scaledMag (k * 2 ^ 23 + m + 1) := by
      by_cases hm : m = 2 ^ 24
      · subst hm
        rw [show k * 2 ^ 23 + 2 ^ 24 + 1 = (k + 1) * 2 ^ 23 + (2 ^ 23 + 1) by ring, scaledMag_pack (by omega), pow_succ 2 k]
        have e : (2 ^ 23 + 1) * (2 ^ k * 2) = (2 ^ 24 + 2) * 2 ^ k := by ring
        rw [e]
        exact Nat.mul_le_mul_right _ (by norm_num)
      · rw [show k * 2 ^ 23 + m + 1 = k * 2 ^ 23 + (m + 1) by ring, scaledMag_pack (by omega)]
    rw [hsr]
    have h3 : 4 * n ≤ (2 * m + 1) * (2 * m + 1) * 4 ^ k := by omega
    have h4 : (2 * m + 1) * 2 ^ k ≤ scaledMag c + m * 2 ^ k := by nlinarith
    calc 4 * n ≤ (2 * m + 1) * (2 * m + 1) * 4 ^ k := h3
      _ = ((2 * m + 1) * 2 ^ k) * ((2 * m + 1) * 2 ^ k) := by rw [e4]; ring
      _ ≤ _ := Nat.mul_le_mul h4 h4

/-- The root of a value of at most 1.0 is at most 1.0. -/
theorem sqrtMag_le_one {u : Nat} (h : u ≤ unit) : sqrtMag u ≤ 0x3F800000 := by
  have hu : u * unit ≤ 2 ^ 298 := by
    calc u * unit ≤ unit * unit := Nat.mul_le_mul_right _ h
      _ = 2 ^ 298 := unit_sq
  have hlt : u * unit < radicandLimit := lt_of_le_of_lt hu (by rw [radicandLimit_eq]; decide +kernel)
  have hs := sqrt_significand hlt
  have hf : root (u * unit) ≤ 2 ^ 149 := root_le hlt (lt_of_le_of_lt hu (by decide +kernel))
  have hk := excess_mono hf
  have hk0 : excess (2 ^ 149) = 126 := by decide
  rw [hk0] at hk
  simp only at hs
  have hm : excess (root (u * unit)) = 126 →
      rneSqrt (u * unit) (excess (root (u * unit))) ≤ 2 ^ 23 := by
    intro e
    rw [e, rneSqrt_le_iff hlt]
    left
    calc 4 * (u * unit) ≤ 4 * 2 ^ 298 := Nat.mul_le_mul_left _ hu
      _ < (2 * 2 ^ 23 + 1) * (2 * 2 ^ 23 + 1) * 4 ^ 126 := by decide +kernel
  unfold sqrtMag packMag
  simp only
  generalize rneSqrt (u * unit) (excess (root (u * unit))) = m at *
  generalize excess (root (u * unit)) = k at *
  clear hu hlt hf hk0 h
  have hb : k * 2 ^ 23 + m ≤ 0x3F800000 := by
    rcases Nat.lt_or_eq_of_le hk with h1 | h1
    · omega
    · have := hm h1; omega
  exact le_trans (min_le_left _ _) hb

/-- The root of a finite value is finite. -/
theorem sqrtMag_lt_inf {u : Nat} (h : u * unit < radicandLimit) : sqrtMag u < infMag := by
  have hs := sqrt_significand h
  have hlim : radicandLimit = 2 ^ 428 := by rw [radicandLimit_eq]; decide +kernel
  have hk : excess (root (u * unit)) ≤ 200 := by
    rcases Nat.lt_or_ge 200 (excess (root (u * unit))) with h1 | h1
    · exfalso
      simp only at hs
      have h2 : 2 ^ (23 + excess (root (u * unit))) * 2 ^ (23 + excess (root (u * unit))) < 2 ^ 428 := by
        rw [← hlim]
        exact lt_of_le_of_lt (hs.resolve_left (fun h3 => by omega)).2.2 h
      rw [← pow_add] at h2
      have := (Nat.pow_lt_pow_iff_right (by decide : 1 < 2)).1 h2
      omega
    · exact h1
  simp only at hs
  unfold sqrtMag packMag infMag
  simp only
  clear hlim h
  omega

end Sys2Proof.Machine.F32
end

