-- ==== Sys2Proof/Laws/Arithmetic.lean ====
section
/-! SUPPORT. One lemma for what each binary32 operation answers on finite operands, and the bounds that follow from monotone
rounding. -/

namespace Sys2Proof.Machine.F32

/-! ### Classes -/

theorem isFinite_iff {w : Word} : isFinite w = true ↔ mag w < infMag := by simp [isFinite]

theorem isNaN_iff {w : Word} : isNaN w = true ↔ infMag < mag w := by simp [isNaN]

theorem isZero_iff {w : Word} : isZero w = true ↔ mag w = 0 := by simp [isZero]

theorem isNaN_false {w : Word} (h : mag w ≤ infMag) : isNaN w = false := by simp [isNaN]; omega

theorem isInf_false {w : Word} (h : mag w < infMag) : isInf w = false := by simp [isInf]; omega

theorem infMag_lt : infMag < 2 ^ 31 := by decide

/-- A pattern below the sign bit is its own magnitude and is not negative. -/
theorem of_toNat_lt {w : Word} (h : w.toNat < 2 ^ 31) : signBit w = false ∧ mag w = w.toNat := by
  have := toNat_eq w
  have hm := mag_lt w
  cases hs : signBit w <;> simp [hs] at this ⊢ <;> omega

theorem toNat_of_nonneg {w : Word} (h : signBit w = false) : w.toNat = mag w := by
  have := toNat_eq w
  simpa [h] using this

theorem mag_roundRatio (s : Bool) (n d : Nat) : mag (roundRatio s n d) = roundMag n d :=
  mag_pack s _ (lt_of_le_of_lt (roundMag_le n d) infMag_lt)

theorem signBit_roundRatio (s : Bool) (n d : Nat) : signBit (roundRatio s n d) = s :=
  signBit_pack s _ (lt_of_le_of_lt (roundMag_le n d) infMag_lt)

theorem mag_zero (s : Bool) : mag (zero s) = 0 := mag_pack s 0 (by norm_num)

theorem signBit_zero (s : Bool) : signBit (zero s) = s := signBit_pack s 0 (by norm_num)

theorem mag_neg (a : Word) : mag (neg a) = mag a := mag_pack _ _ (mag_lt a)

theorem signBit_neg (a : Word) : signBit (neg a) = !signBit a := signBit_pack _ _ (mag_lt a)

theorem scaled_neg (a : Word) : scaled (neg a) = -scaled a := by
  unfold scaled
  rw [mag_neg, signBit_neg]
  cases signBit a <;> simp

theorem natAbs_scaled (a : Word) : (scaled a).natAbs = scaledMag (mag a) := by
  unfold scaled
  split <;> omega

/-- The NaN a draw gives is a NaN. -/
theorem isNaN_nanPattern (c : Bool × Fin 8388607) : isNaN (nanPattern c) = true := by
  have h := c.2.isLt
  have : infMag + 1 + c.2.val < 2 ^ 31 := by unfold infMag; omega
  rw [isNaN_iff, nanPattern, mag_pack _ _ this]
  omega

/-- Every NaN pattern is one a draw can give. -/
theorem exists_nanPattern {w : Word} (h : isNaN w = true) : ∃ c, nanPattern c = w := by
  rw [isNaN_iff] at h
  have hm := mag_lt w
  have hb : mag w - infMag - 1 < 8388607 := by unfold infMag at *; omega
  refine ⟨(signBit w, ⟨mag w - infMag - 1, hb⟩), ?_⟩
  rw [nanPattern]
  simp only
  rw [show infMag + 1 + (mag w - infMag - 1) = mag w by omega, pack_signBit_mag]

/-! ### The operations on finite operands -/

section
variable {nan a b : Word}

theorem add_finite (ha : mag a < infMag) (hb : mag b < infMag) : add nan a b =
    if scaled a + scaled b = 0 then zero (signBit a && signBit b)
    else roundRatio (decide (scaled a + scaled b < 0)) (scaled a + scaled b).natAbs 1 := by
  simp [add, isNaN_false ha.le, isNaN_false hb.le, isInf_false ha, isInf_false hb]

theorem sub_finite (ha : mag a < infMag) (hb : mag b < infMag) : sub nan a b =
    if scaled a - scaled b = 0 then zero (signBit a && !signBit b)
    else roundRatio (decide (scaled a - scaled b < 0)) (scaled a - scaled b).natAbs 1 := by
  rw [sub, add_finite ha (by rwa [mag_neg]), scaled_neg, signBit_neg]
  rfl

theorem mul_finite (ha : mag a < infMag) (hb : mag b < infMag) :
    mul nan a b = roundRatio (signBit a != signBit b) (scaledMag (mag a) * scaledMag (mag b)) unit := by
  simp [mul, isNaN_false ha.le, isNaN_false hb.le, isInf_false ha, isInf_false hb]

theorem div_finite (ha : mag a < infMag) (hb : mag b < infMag) (h0 : 0 < mag b) :
    div nan a b = roundRatio (signBit a != signBit b) (scaledMag (mag a) * unit) (scaledMag (mag b)) := by
  have : isZero b = false := by simp [isZero]; omega
  simp [div, isNaN_false ha.le, isNaN_false hb.le, isInf_false ha, isInf_false hb, this]

theorem sqrt_finite (ha : mag a < infMag) (h0 : 0 < mag a) (hs : signBit a = false) :
    sqrt nan a = pack false (sqrtMag (scaledMag (mag a))) := by
  have : isZero a = false := by simp [isZero]; omega
  simp [sqrt, isNaN_false ha.le, isInf_false ha, this, hs]

theorem unit_pos : 0 < unit := by unfold unit; positivity

/-! ### Bounds -/

/-- The magnitude of a product, from bounds on the operands. -/
theorem mag_mul_le {A B C : Nat} (ha : mag a ≤ A) (hb : mag b ≤ B) (hA : A < infMag) (hB : B < infMag) (hC : C ≤ infMag)
    (h : scaledMag A * scaledMag B ≤ scaledMag C * unit) : mag (mul nan a b) ≤ C := by
  rw [mul_finite (by omega) (by omega), mag_roundRatio]
  apply roundMag_le_of_le unit_pos hC
  exact le_trans (Nat.mul_le_mul (scaledMag_le_iff.2 ha) (scaledMag_le_iff.2 hb)) h

theorem signBit_mul (ha : mag a < infMag) (hb : mag b < infMag) :
    signBit (mul nan a b) = (signBit a != signBit b) := by rw [mul_finite ha hb, signBit_roundRatio]

/-- The magnitude of a quotient, from bounds on the operands. -/
theorem mag_div_le {A B C : Nat} (ha : mag a ≤ A) (hb : B ≤ mag b) (hA : A < infMag) (hb' : mag b < infMag) (hB : 0 < B)
    (hC : C ≤ infMag) (h : scaledMag A * unit ≤ scaledMag C * scaledMag B) : mag (div nan a b) ≤ C := by
  rw [div_finite (by omega) hb' (by omega), mag_roundRatio]
  apply roundMag_le_of_le (scaledMag_pos.2 (by omega)) hC
  calc scaledMag (mag a) * unit ≤ scaledMag A * unit := Nat.mul_le_mul_right _ (scaledMag_le_iff.2 ha)
    _ ≤ scaledMag C * scaledMag B := h
    _ ≤ scaledMag C * scaledMag (mag b) := Nat.mul_le_mul_left _ (scaledMag_le_iff.2 hb)

/-- The magnitude of a quotient from below. -/
theorem le_mag_div {A B C : Nat} (ha : A ≤ mag a) (hb : mag b ≤ B) (ha' : mag a < infMag) (hB : B < infMag) (h0 : 0 < mag b)
    (hC : C ≤ infMag) (h : scaledMag C * scaledMag B ≤ scaledMag A * unit) : C ≤ mag (div nan a b) := by
  rw [div_finite ha' (by omega) h0, mag_roundRatio]
  apply le_roundMag_of_le (scaledMag_pos.2 h0) hC
  calc scaledMag C * scaledMag (mag b) ≤ scaledMag C * scaledMag B := Nat.mul_le_mul_left _ (scaledMag_le_iff.2 hb)
    _ ≤ scaledMag A * unit := h
    _ ≤ scaledMag (mag a) * unit := Nat.mul_le_mul_right _ (scaledMag_le_iff.2 ha)

theorem signBit_div (ha : mag a < infMag) (hb : mag b < infMag) (h0 : 0 < mag b) :
    signBit (div nan a b) = (signBit a != signBit b) := by rw [div_finite ha hb h0, signBit_roundRatio]

/-- The magnitude of a sum, from bounds on the operands. -/
theorem mag_add_le {A B C : Nat} (ha : mag a ≤ A) (hb : mag b ≤ B) (hA : A < infMag) (hB : B < infMag) (hC : C ≤ infMag)
    (h : scaledMag A + scaledMag B ≤ scaledMag C) : mag (add nan a b) ≤ C := by
  rw [add_finite (by omega) (by omega)]
  split
  · rw [mag_zero]; omega
  · rw [mag_roundRatio]
    apply roundMag_le_of_le one_pos hC
    have h1 := Int.natAbs_add_le (scaled a) (scaled b)
    rw [natAbs_scaled, natAbs_scaled] at h1
    have h2 := scaledMag_le_iff.2 ha
    have h3 := scaledMag_le_iff.2 hb
    omega

/-- The sum of two values that are not negative is not negative. -/
theorem signBit_add_of_nonneg (ha : mag a < infMag) (hb : mag b < infMag) (hsa : signBit a = false)
    (hsb : signBit b = false) : signBit (add nan a b) = false := by
  rw [add_finite ha hb]
  split
  · rw [signBit_zero]; simp [hsa]
  · rw [signBit_roundRatio]
    have h1 : scaled a = scaledMag (mag a) := by simp [scaled, hsa]
    have h2 : scaled b = scaledMag (mag b) := by simp [scaled, hsb]
    rw [h1, h2]; simp; omega

/-- Adding a zero of either sign to a finite value that is not a zero changes nothing. -/
theorem add_zero_right (ha : mag a < infMag) (h0 : 0 < mag a) (hb : mag b = 0) : add nan a b = a := by
  have hsb : scaled b = 0 := by simp [scaled, hb]
  have hpos : 0 < scaledMag (mag a) := scaledMag_pos.2 h0
  have hne : scaled a + scaled b ≠ 0 := by
    rw [hsb]; unfold scaled; split <;> omega
  rw [add_finite ha (by rw [hb]; decide), if_neg hne, hsb, add_zero, natAbs_scaled]
  have hr := roundMag_scaledMag (m := mag a) one_pos ha.le
  rw [mul_one] at hr
  rw [roundRatio, hr]
  have hs : decide (scaled a < 0) = signBit a := by
    unfold scaled
    cases signBit a
    · simp
    · simp; omega
  rw [hs, pack_signBit_mag]

/-- The square of a value that is not a NaN is not negative. -/
theorem signBit_square (h : isNaN a = false) : signBit (mul nan a a) = false := by
  unfold mul
  simp only [h, Bool.or_self, bne_self_eq_false]
  by_cases hi : isInf a = true
  · have hz : isZero a = false := by
      have : mag a = infMag := by simpa [isInf] using hi
      simp [isZero, this, infMag]
    simp [hi, hz, inf, signBit_pack _ _ infMag_lt]
  · simp [hi, signBit_roundRatio]

/-- The exact remainder: on finite operands with a divisor that is not zero, the answer's value is the remainder of the values,
with the dividend's sign, and its magnitude is below the divisor's. -/
theorem fmod_finite (ha : mag a < infMag) (hb : mag b < infMag) (h0 : 0 < mag b) :
    scaledMag (mag (fmod nan a b)) = scaledMag (mag a) % scaledMag (mag b) ∧ mag (fmod nan a b) < mag b ∧
    (signBit a = false → signBit (fmod nan a b) = false) ∧ (mag (fmod nan a b) = 0 → signBit (fmod nan a b) = false) := by
  have hz : isZero b = false := by simp [isZero]; omega
  have e : fmod nan a b = if scaledMag (mag a) % scaledMag (mag b) = 0 then zero false
      else roundRatio (signBit a) (scaledMag (mag a) % scaledMag (mag b)) 1 := by
    simp [fmod, isFinite_iff.2 ha, isFinite_iff.2 hb, hz]
  obtain ⟨h1, h2⟩ := roundMag_mod (a := mag a) h0 hb.le
  rw [e]
  split
  · rename_i hr
    rw [mag_zero, signBit_zero, hr]
    exact ⟨by simp, h0, fun _ => rfl, fun _ => rfl⟩
  · rename_i hr
    rw [mag_roundRatio, signBit_roundRatio]
    refine ⟨h1, h2, id, fun h3 => ?_⟩
    rw [h3] at h1
    simp at h1
    exact absurd h1.symm hr

/-! ### Nearest results -/

/-- A finite pattern's value against another's, with the first the rounded one: no finite value is nearer. -/
theorem near_of_midpoint {x y : Int} {n d : Int} (_ : 0 < d) (h1 : y < x → (y + x) * d ≤ 2 * n) (h2 : x < y → 2 * n ≤ (y + x) * d) :
    |x * d - n| ≤ |y * d - n| := by
  rcases lt_trichotomy y x with h | h | h
  · have h3 := h1 h
    have h4 : y * d ≤ x * d := by nlinarith
    have h5 : y * d + x * d ≤ 2 * n := by linarith [add_mul y x d]
    rcases abs_cases (x * d - n) with ⟨e, _⟩ | ⟨e, _⟩ <;> rcases abs_cases (y * d - n) with ⟨e', _⟩ | ⟨e', _⟩ <;>
      rw [e, e'] <;> linarith
  · rw [h]
  · have h3 := h2 h
    have h4 : x * d ≤ y * d := by nlinarith
    have h5 : 2 * n ≤ y * d + x * d := by linarith [add_mul y x d]
    rcases abs_cases (x * d - n) with ⟨e, _⟩ | ⟨e, _⟩ <;> rcases abs_cases (y * d - n) with ⟨e', _⟩ | ⟨e', _⟩ <;>
      rw [e, e'] <;> linarith

/-- A finite rounded ratio, with its sign, is nearest to the ratio among all finite values. -/
theorem roundRatio_nearest {s : Bool} {num den : Nat} {c : Word} (hd : 0 < den) (hr : roundMag num den < infMag) :
    |scaled (roundRatio s num den) * den - (if s then -(num : Int) else num)| ≤
      |scaled c * den - (if s then -(num : Int) else num)| := by
  have hmid := roundMag_midpoint (c := mag c) hd hr
  have hval : scaled (roundRatio s num den) =
      if s then -(scaledMag (roundMag num den) : Int) else scaledMag (roundMag num den) := by
    unfold scaled
    rw [signBit_roundRatio, mag_roundRatio]
  have hD : (0 : Int) < den := by exact_mod_cast hd
  rw [hval]
  have hmono : ∀ p q : Nat, ((scaledMag p : Int) < scaledMag q) → p < q := fun p q h =>
    scaledMag_lt_iff.1 (by exact_mod_cast h)
  generalize roundMag num den = r at *
  have hm1 : (scaledMag (mag c) : Int) < scaledMag r →
      ((scaledMag (mag c) : Int) + scaledMag r) * den ≤ 2 * num := fun h => by exact_mod_cast hmid.1 (hmono _ _ h)
  have hm2 : (scaledMag r : Int) < scaledMag (mag c) →
      2 * (num : Int) ≤ ((scaledMag (mag c) : Int) + scaledMag r) * den := fun h => by exact_mod_cast hmid.2 (hmono _ _ h)
  have hr0 : (0 : Int) ≤ scaledMag r := Int.natCast_nonneg _
  have hc0 : (0 : Int) ≤ scaledMag (mag c) := Int.natCast_nonneg _
  have hn0 : (0 : Int) ≤ num := Int.natCast_nonneg _
  have hopp : ∀ t : Int, 0 ≤ t → |(scaledMag r : Int) * den - num| ≤ |t * den - num| →
      |(scaledMag r : Int) * den - num| ≤ |(-t) * den - num| := by
    intro t ht h
    refine le_trans h ?_
    have h2 : 0 ≤ t * den := mul_nonneg ht hD.le
    rw [show (-t) * (den : Int) - num = -(t * den + num) by ring, abs_neg,
      abs_of_nonneg (show (0 : Int) ≤ t * den + num by linarith), abs_le]
    constructor <;> linarith
  have hsame : |(scaledMag r : Int) * den - num| ≤ |(scaledMag (mag c) : Int) * den - num| :=
    near_of_midpoint hD hm1 hm2
  have hcv : scaled c = if signBit c then -(scaledMag (mag c) : Int) else scaledMag (mag c) := rfl
  cases s
  · simp only [Bool.false_eq_true, if_false]
    rw [hcv]
    cases signBit c
    · simpa using hsame
    · simpa using hopp _ hc0 hsame
  · simp only [if_true]
    have flip : ∀ t : Int, |(-t) * (den : Int) - -(num : Int)| = |t * den - num| := by
      intro t; rw [show (-t) * (den : Int) - -(num : Int) = -(t * den - num) by ring, abs_neg]
    rw [flip, show scaled c = -(-scaled c) by ring, flip, hcv]
    cases signBit c
    · simpa using hopp _ hc0 hsame
    · simpa using hsame

/-- The infinity of a rounded ratio, which is never a NaN. -/
theorem isInf_roundRatio {s : Bool} {num den : Nat} (hd : 0 < den) :
    isInf (roundRatio s num den) = true ↔ (2 ^ 277 - 2 ^ 252) * den ≤ num := by
  simp only [isInf, mag_roundRatio, decide_eq_true_eq, roundMag_overflow hd]

theorem isNaN_roundRatio (s : Bool) (num den : Nat) : isNaN (roundRatio s num den) = false :=
  isNaN_false (by rw [mag_roundRatio]; exact roundMag_le _ _)

theorem toNat_mod_two (w : Word) : w.toNat % 2 = mag w % 2 := by
  have := toNat_eq w
  split at this <;> omega

/-- A rounded ratio that is as near as another value to the exact ratio has an even pattern. -/
theorem roundRatio_tie {s : Bool} {num den : Nat} {c : Word} (hd : 0 < den) (hr : roundMag num den < infMag)
    (ht : |scaled (roundRatio s num den) * den - (if s then -(num : Int) else num)| =
      |scaled c * den - (if s then -(num : Int) else num)|) (hne : scaled c ≠ scaled (roundRatio s num den)) :
    (roundRatio s num den).toNat % 2 = 0 := by
  have hval : scaled (roundRatio s num den) =
      if s then -(scaledMag (roundMag num den) : Int) else scaledMag (roundMag num den) := by
    unfold scaled
    rw [signBit_roundRatio, mag_roundRatio]
  have hcv : scaled c = if signBit c then -(scaledMag (mag c) : Int) else scaledMag (mag c) := rfl
  have hnear := roundRatio_nearest (s := s) (c := 0) hd hr
  have h0 : scaled (0 : Word) = 0 := by decide
  rw [h0] at hnear
  rw [toNat_mod_two, mag_roundRatio]
  have key : ∀ c' : Nat, c' ≠ roundMag num den →
      |(scaledMag (roundMag num den) : Int) * den - num| = |(scaledMag c' : Int) * den - num| →
        roundMag num den % 2 = 0 := by
    intro c' hc' he
    refine roundMag_tie hd hr hc' ?_
    have hDne : (scaledMag (roundMag num den) : Int) * den ≠ (scaledMag c' : Int) * den := by
      intro h
      have h1 : (scaledMag (roundMag num den)) * den = (scaledMag c') * den := by exact_mod_cast h
      exact hc' (scaledMag_strictMono.injective (Nat.eq_of_mul_eq_mul_right hd h1)).symm
    have : 2 * (num : Int) = (scaledMag c' + scaledMag (roundMag num den) : Int) * den := by
      rw [add_mul]
      rcases abs_eq_abs.1 he with h | h
      · exact absurd (by linarith) hDne
      · linarith
    exact_mod_cast this
  rw [hval] at ht hne hnear
  have hR0 : (0 : Int) ≤ scaledMag (roundMag num den) * den :=
    mul_nonneg (Int.natCast_nonneg _) (Int.natCast_nonneg _)
  have hC0 : (0 : Int) ≤ scaledMag (mag c) * den := mul_nonneg (Int.natCast_nonneg _) (Int.natCast_nonneg _)
  have hD : (0 : Int) < den := by exact_mod_cast hd
  -- reduce to a positive exact value
  have main : ∀ v : Int, (v = scaledMag (mag c) ∨ v = -(scaledMag (mag c) : Int)) → v ≠ scaledMag (roundMag num den) →
      |(scaledMag (roundMag num den) : Int) * den - num| = |v * den - num| →
      |(scaledMag (roundMag num den) : Int) * den - num| ≤ num → roundMag num den % 2 = 0 := by
    intro v hv hvne hve hz
    rcases hv with rfl | rfl
    · exact key (mag c) (fun h => hvne (by rw [h])) hve
    · by_cases hc0 : scaledMag (mag c) = 0
      · rw [hc0] at hve hvne
        refine key 0 (fun h => hvne (by rw [← h]; simp)) (by simpa using hve)
      · exfalso
        have : (0 : Int) < scaledMag (mag c) * den := by
          exact mul_pos (by omega) hD
        rw [hve, abs_le] at hz
        have := hz.1
        linarith
  have hn0 : (0 : Int) ≤ num := Int.natCast_nonneg _
  cases s
  · simp only [Bool.false_eq_true, if_false] at ht hne hnear
    refine main (scaled c) (by rw [hcv]; split <;> simp) hne ht ?_
    rwa [zero_mul, zero_sub, abs_neg, abs_of_nonneg hn0] at hnear
  · simp only [if_true] at ht hne hnear
    have flip : ∀ t : Int, |(-t) * (den : Int) - -(num : Int)| = |t * den - num| := by
      intro t; rw [show (-t) * (den : Int) - -(num : Int) = -(t * den - num) by ring, abs_neg]
    rw [flip] at ht hnear
    rw [show scaled c = -(-scaled c) by ring, flip] at ht
    refine main (-scaled c) (by rw [hcv]; split <;> simp) (fun h => hne (by rw [← h]; ring)) ht ?_
    rwa [zero_mul, zero_sub, neg_neg, abs_of_nonneg hn0] at hnear

end

end Sys2Proof.Machine.F32
end

