-- ==== Sys2Proof/Laws/Decode.lean ====
section
/-! SUPPORT. The fields of a packed word, and the word of its fields. -/

namespace Sys2Proof

/-- A natural number view of a packed word. -/
theorem packC64_toNat (opc a : Byte) (d : Word) :
    (packC64 opc a d).toNat = opc.toNat * 2 ^ 56 + a.toNat * 2 ^ 48 + d.toNat := by
  have ho := opc.isLt
  have ha := a.isLt
  have hd := d.isLt
  have h1 : opc.toNat <<< 8 ||| a.toNat = opc.toNat * 2 ^ 8 + a.toNat := by
    rw [← Nat.shiftLeft_add_eq_or_of_lt ha, Nat.shiftLeft_eq]
  have h2 : ∀ n : Nat, n <<< 32 ||| d.toNat = n * 2 ^ 32 + d.toNat := fun n => by
    rw [← Nat.shiftLeft_add_eq_or_of_lt hd, Nat.shiftLeft_eq]
  have h0 : (0 : BitVec 16).toNat = 0 := rfl
  simp only [packC64, BitVec.toNat_append]
  rw [h1, h0, Nat.or_zero, h2, Nat.shiftLeft_eq]
  omega

@[simp] theorem opcField_packC64 (opc a : Byte) (d : Word) : opcField (packC64 opc a d) = opc := by
  apply BitVec.eq_of_toNat_eq
  have ho := opc.isLt
  have ha := a.isLt
  have hd := d.isLt
  rw [opcField, BitVec.extractLsb'_toNat, packC64_toNat, Nat.shiftRight_eq_div_pow]
  omega

@[simp] theorem aField_packC64 (opc a : Byte) (d : Word) : aField (packC64 opc a d) = a := by
  apply BitVec.eq_of_toNat_eq
  have ho := opc.isLt
  have ha := a.isLt
  have hd := d.isLt
  rw [aField, BitVec.extractLsb'_toNat, packC64_toNat, Nat.shiftRight_eq_div_pow]
  omega

@[simp] theorem rsvField_packC64 (opc a : Byte) (d : Word) : rsvField (packC64 opc a d) = 0 := by
  apply BitVec.eq_of_toNat_eq
  have ho := opc.isLt
  have ha := a.isLt
  have hd := d.isLt
  rw [rsvField, BitVec.extractLsb'_toNat, packC64_toNat, Nat.shiftRight_eq_div_pow]
  simp
  omega

@[simp] theorem dField_packC64 (opc a : Byte) (d : Word) : dField (packC64 opc a d) = d := by
  apply BitVec.eq_of_toNat_eq
  have ho := opc.isLt
  have ha := a.isLt
  have hd := d.isLt
  rw [dField, BitVec.extractLsb'_toNat, packC64_toNat, Nat.shiftRight_eq_div_pow]
  omega

/-- A word whose RSV field is zero is the pack of its other fields. -/
theorem packC64_fields (w : Cmd) (h : rsvField w = 0) : packC64 (opcField w) (aField w) (dField w) = w := by
  apply BitVec.eq_of_toNat_eq
  have hw := w.isLt
  have h' := congrArg BitVec.toNat h
  rw [rsvField, BitVec.extractLsb'_toNat, Nat.shiftRight_eq_div_pow] at h'
  rw [packC64_toNat]
  simp only [opcField, aField, dField, BitVec.extractLsb'_toNat, Nat.shiftRight_eq_div_pow]
  simp at h'
  omega

/-- The fields of a command's word. -/
@[simp] theorem opcField_encode (i : Instr) : opcField (encode i) = opcodeOf i := opcField_packC64 _ _ _

@[simp] theorem aField_encode (i : Instr) : aField (encode i) = aOf i := aField_packC64 _ _ _

@[simp] theorem rsvField_encode (i : Instr) : rsvField (encode i) = 0 := rsvField_packC64 _ _ _

@[simp] theorem dField_encode (i : Instr) : dField (encode i) = dOf i := dField_packC64 _ _ _

/-- Everything a legal word says about its fields. -/
theorem fields_of_decode {w : Cmd} {i : Instr} (h : decode w = .legal i) :
    rsvField w = 0 ∧ opcField w = opcodeOf i ∧ aField w = aOf i ∧ dField w = dOf i := by
  unfold decode at h
  split at h
  · cases h
  · split at h
    · cases h
    · rename_i h8 hr
      refine ⟨by simpa using hr, ?_⟩
      unfold decodeFields at h
      have hopc : ∀ n : Nat, (opcField w).toNat = n → opcField w = BitVec.ofNat 8 n := by
        intro n hn; rw [← hn]; simp
      split at h <;> rename_i hn <;> (try split at h) <;> cases h <;>
        simp_all [opcodeOf, aOf, dOf]

/-- A legal word is the word of its command. -/
theorem encode_of_decode {w : Cmd} {i : Instr} (h : decode w = .legal i) : encode i = w := by
  obtain ⟨h1, h2, h3, h4⟩ := fields_of_decode h
  rw [← packC64_fields w h1, h2, h3, h4]; rfl

/-- An illegal word's cause is one of two, and its opcode says which. -/
theorem illegal_cause {w : Cmd} {c : Cause} (h : decode w = .illegal c) :
    (c = .opcode ∧ 8 ≤ (opcField w).toNat) ∨ (c = .reserved ∧ (opcField w).toNat < 8) := by
  unfold decode at h
  split at h
  · rename_i h8; cases h; exact Or.inl ⟨rfl, h8⟩
  · rename_i h8
    split at h
    · cases h; exact Or.inr ⟨rfl, by omega⟩
    · unfold decodeFields at h
      split at h <;> (try split at h) <;> cases h <;>
        first
          | exact Or.inr ⟨rfl, by omega⟩
          | (exfalso; simp only [imp_false] at *; omega)

theorem illegal_cause_ne_value {w : Cmd} {c : Cause} (h : decode w = .illegal c) : c ≠ .value := by
  rcases illegal_cause h with ⟨rfl, _⟩ | ⟨rfl, _⟩ <;> decide

end Sys2Proof
end

