-- ==== Sys2Proof/Laws/HostContract.lean ====
section
/-! SUPPORT. The small lemmas of the host layer: what setting a timer, finding a voice's note and issuing a command do. -/

namespace Sys2Proof.Machine

/-- Setting a timer touches the voices of that instance and no other. -/
theorem setTimer_eq_map (k t : Nat) (l : List LiveVoice) :
    setTimer k t l = l.map (fun v => if v.inst = k then { v with timer := t } else v) := by
  induction l with
  | nil => rfl
  | cons v rest ih => simp only [setTimer, List.map_cons, ih]

/-- An instance holds a note when there is such an instance and its NOTE is that note. -/
theorem holdsNote_iff {y : System} {n : Byte} {k : Nat} :
    y.holdsNote n k = true ↔ ∃ s, y.insts[k]? = some s ∧ s.note = n := by
  unfold System.holdsNote
  cases y.insts[k]? <;> simp

/-- The voice found for a note holds it. -/
theorem holdsNote_of_findVoice {y : System} {n : Byte} {voice : LiveVoice} (h : y.findVoice n = some voice) :
    y.holdsNote n voice.inst = true :=
  List.find?_some (p := fun v : LiveVoice => y.holdsNote n v.inst) h

/-- A command issued to an instance of the system executes there. -/
theorem issue_of_getElem? {y : System} {k : Nat} {s : State} (h : y.insts[k]? = some s) (i : Instr) :
    y.issue k i = .ok { y with insts := y.insts.set k (s.executes (encode i)) } := by
  simp [System.issue, h]

end Sys2Proof.Machine
end

