-- ==== Sys2Proof/Laws/Params.lean ====
section
/-! SUPPORT. What is known of the parameters (R6, R12), and the comparisons of R10 on patterns. -/

namespace Sys2Proof.Machine

namespace F32

theorem le_iff {a b : Word} : le a b = true ↔ mag a ≤ infMag ∧ mag b ≤ infMag ∧ key a ≤ key b := by
  simp [le, isNaN, and_assoc]

theorem lt_iff {a b : Word} : lt a b = true ↔ mag a ≤ infMag ∧ mag b ≤ infMag ∧ key a < key b := by
  simp [lt, isNaN, and_assoc]

/-- Being at or above +0: not a NaN, and the sign bit clear or the value −0. -/
theorem ge_zero_iff {a : Word} : ge a 0 = true ↔ mag a ≤ infMag ∧ (signBit a = false ∨ mag a = 0) := by
  have h0 : mag (0 : Word) = 0 := by decide
  have hk : key (0 : Word) = 0 := by decide
  rw [ge, le_iff, h0, hk]
  unfold key
  have hi : (0 : Nat) ≤ infMag := Nat.zero_le _
  cases signBit a <;> simp [hi]

/-- Being at most 1.0. -/
theorem le_one_iff {a : Word} : le a 0x3F800000 = true ↔ mag a ≤ infMag ∧ (signBit a = true ∨ mag a ≤ 0x3F800000) := by
  have h0 : mag (0x3F800000 : Word) = 0x3F800000 := by decide
  have hk : key (0x3F800000 : Word) = 0x3F800000 := by decide
  rw [le_iff, h0, hk]
  unfold key
  have hi : (0x3F800000 : Nat) ≤ infMag := by decide
  cases signBit a
  · simp [hi]
  · simp [hi]

/-- Lying in [0, 1]: the pattern is −0 or at most that of 1.0. -/
theorem inUnit_iff {a : Word} : inUnit a = true ↔ mag a ≤ 0x3F800000 ∧ (signBit a = false ∨ mag a = 0) := by
  have hu : inUnit a = (ge a 0 && le a 0x3F800000) := rfl
  rw [hu, Bool.and_eq_true, ge_zero_iff, le_one_iff]
  have hi : infMag = 0x7F800000 := rfl
  cases signBit a <;> simp <;> omega

/-- Lying in [-1, 1]. -/
theorem within_one_iff {a : Word} : (le 0xBF800000 a = true ∧ le a 0x3F800000 = true) ↔ mag a ≤ 0x3F800000 := by
  have h0 : mag (0xBF800000 : Word) = 0x3F800000 := by decide
  have hk : key (0xBF800000 : Word) = -0x3F800000 := by decide
  rw [le_one_iff, le_iff, h0, hk]
  unfold key
  have hi : infMag = 0x7F800000 := rfl
  cases signBit a <;> simp <;> omega

end F32

/-- SIN_ZERO (R12). -/
theorem SIN_zero : SIN 0 = 0 := by simp [SIN]

/-- SIN_FINITE (R12). -/
theorem mag_SIN_le {x : Word} (h : F32.isFinite x = true) : F32.mag (SIN x) ≤ 0x3F800000 := by
  unfold SIN
  have h0 : F32.mag (0 : Word) = 0 := by decide
  rw [h, if_pos rfl]
  split
  · rw [h0]; omega
  · split
    · rename_i h1
      rw [Bool.and_eq_true] at h1
      exact F32.within_one_iff.1 h1
    · rw [h0]; omega

/-- EXP2_ZERO (R12). -/
theorem EXP2_zero : EXP2 0 = 0x3F800000 := by simp [EXP2, one]

/-- EXP2_FINITE (R12). -/
theorem EXP2_finite {x : Word} (h1 : F32.le 0xC0C00000 x = true) (h2 : F32.le x 0x41800000 = true) :
    F32.isFinite (EXP2 x) = true ∧ F32.lt 0 (EXP2 x) = true := by
  unfold EXP2
  split
  · exact ⟨by decide, by decide⟩
  · rw [h1, h2]
    simp only [Bool.and_self, if_true]
    split
    · rename_i h; simpa using h
    · exact ⟨by decide, by decide⟩

/-- EPSILON is positive and normal (R6, D7; log 2). -/
theorem EPSILON_normal : 0x00800000 ≤ EPSILON.toNat ∧ EPSILON.toNat < 0x7F800000 := by
  unfold EPSILON
  split
  · assumption
  · decide

theorem finiteParam_finite (raw : Word) : F32.isFinite (finiteParam raw) = true := by
  unfold finiteParam
  split
  · assumption
  · decide

/-- The limits of the OPEN reset values (R6). -/
theorem RESET_SAMPLE_RATE_ne_zero : RESET_SAMPLE_RATE ≠ 0 := by
  unfold RESET_SAMPLE_RATE
  split
  · decide
  · assumption

theorem RESET_SUSTAIN_LEVEL_inUnit : F32.inUnit RESET_SUSTAIN_LEVEL = true := by
  unfold RESET_SUSTAIN_LEVEL
  split
  · assumption
  · decide

end Sys2Proof.Machine
end

