-- ==== Sys2Proof/Laws/PerInstr.lean ====
section
/-! SUPPORT. One family of statements about every command as syntax: the fields of its word (R51, R53). -/

namespace Sys2Proof.Laws.EncodeFields

/-- The word of a command carries its opcode, its A and D operands, and a zero RSV field. -/
def Statement (i : Instr) : Prop :=
  opcField (encode i) = opcodeOf i ∧ aField (encode i) = aOf i ∧ rsvField (encode i) = 0 ∧ dField (encode i) = dOf i

theorem nop : Statement .nop := ⟨by simp, by simp, by simp, by simp⟩

theorem tick : Statement .tick := ⟨by simp, by simp, by simp, by simp⟩

theorem keyon (note : Byte) (gain : Word) : Statement (.keyon note gain) := ⟨by simp, by simp, by simp, by simp⟩

theorem restrike (gain : Word) : Statement (.restrike gain) := ⟨by simp, by simp, by simp, by simp⟩

theorem keyoff : Statement .keyoff := ⟨by simp, by simp, by simp, by simp⟩

theorem wrreg (addr : Byte) (value : Word) : Statement (.wrreg addr value) := ⟨by simp, by simp, by simp, by simp⟩

theorem rdreg (addr : Byte) : Statement (.rdreg addr) := ⟨by simp, by simp, by simp, by simp⟩

theorem clear : Statement .clear := ⟨by simp, by simp, by simp, by simp⟩

end Sys2Proof.Laws.EncodeFields
end

