-- ==== Sys2Proof/Laws/State.lean ====
section
/-! SUPPORT. One lemma for each field of State and each shared update of it, so that no later proof unfolds a record update. -/

namespace Sys2Proof.Machine.State

variable (s : State) (v : Word) (c : Cause) (cmd : Cmd) (rest : List Input) (r : Reg)

/-! ### respond -/

@[simp] theorem respond_gate : (s.respond v).gate = s.gate := rfl

@[simp] theorem respond_env : (s.respond v).env = s.env := rfl

@[simp] theorem respond_active : (s.respond v).active = s.active := rfl

@[simp] theorem respond_errIllegal : (s.respond v).errIllegal = s.errIllegal := rfl

@[simp] theorem respond_errValue : (s.respond v).errValue = s.errValue := rfl

@[simp] theorem respond_errinfo : (s.respond v).errinfo = s.errinfo := rfl

@[simp] theorem respond_note : (s.respond v).note = s.note := rfl

@[simp] theorem respond_peakGain : (s.respond v).peakGain = s.peakGain := rfl

@[simp] theorem respond_pan : (s.respond v).pan = s.pan := rfl

@[simp] theorem respond_position : (s.respond v).position = s.position := rfl

@[simp] theorem respond_phase : (s.respond v).phase = s.phase := rfl

@[simp] theorem respond_envOut : (s.respond v).envOut = s.envOut := rfl

@[simp] theorem respond_accL : (s.respond v).accL = s.accL := rfl

@[simp] theorem respond_accR : (s.respond v).accR = s.accR := rfl

@[simp] theorem respond_sampleRate : (s.respond v).sampleRate = s.sampleRate := rfl

@[simp] theorem respond_attackTime : (s.respond v).attackTime = s.attackTime := rfl

@[simp] theorem respond_decayTime : (s.respond v).decayTime = s.decayTime := rfl

@[simp] theorem respond_sustainLevel : (s.respond v).sustainLevel = s.sustainLevel := rfl

@[simp] theorem respond_releaseTime : (s.respond v).releaseTime = s.releaseTime := rfl

@[simp] theorem respond_responses : (s.respond v).responses = s.responses ++ [v] := rfl

@[simp] theorem respond_inputs : (s.respond v).inputs = s.inputs := rfl

@[simp] theorem respond_drawNo : (s.respond v).drawNo = s.drawNo := rfl

/-! ### raiseError -/

@[simp] theorem raiseError_gate : (s.raiseError c cmd).gate = s.gate := rfl

@[simp] theorem raiseError_env : (s.raiseError c cmd).env = s.env := rfl

@[simp] theorem raiseError_active : (s.raiseError c cmd).active = s.active := rfl

@[simp] theorem raiseError_errIllegal : (s.raiseError c cmd).errIllegal = (s.errIllegal || decide (c ≠ .value)) := rfl

@[simp] theorem raiseError_errValue : (s.raiseError c cmd).errValue = (s.errValue || decide (c = .value)) := rfl

@[simp] theorem raiseError_errinfo : (s.raiseError c cmd).errinfo = if s.noError then ⟨c, opcField cmd, aField cmd⟩ else s.errinfo := rfl

@[simp] theorem raiseError_note : (s.raiseError c cmd).note = s.note := rfl

@[simp] theorem raiseError_peakGain : (s.raiseError c cmd).peakGain = s.peakGain := rfl

@[simp] theorem raiseError_pan : (s.raiseError c cmd).pan = s.pan := rfl

@[simp] theorem raiseError_position : (s.raiseError c cmd).position = s.position := rfl

@[simp] theorem raiseError_phase : (s.raiseError c cmd).phase = s.phase := rfl

@[simp] theorem raiseError_envOut : (s.raiseError c cmd).envOut = s.envOut := rfl

@[simp] theorem raiseError_accL : (s.raiseError c cmd).accL = s.accL := rfl

@[simp] theorem raiseError_accR : (s.raiseError c cmd).accR = s.accR := rfl

@[simp] theorem raiseError_sampleRate : (s.raiseError c cmd).sampleRate = s.sampleRate := rfl

@[simp] theorem raiseError_attackTime : (s.raiseError c cmd).attackTime = s.attackTime := rfl

@[simp] theorem raiseError_decayTime : (s.raiseError c cmd).decayTime = s.decayTime := rfl

@[simp] theorem raiseError_sustainLevel : (s.raiseError c cmd).sustainLevel = s.sustainLevel := rfl

@[simp] theorem raiseError_releaseTime : (s.raiseError c cmd).releaseTime = s.releaseTime := rfl

@[simp] theorem raiseError_responses : (s.raiseError c cmd).responses = s.responses := rfl

@[simp] theorem raiseError_inputs : (s.raiseError c cmd).inputs = s.inputs := rfl

@[simp] theorem raiseError_drawNo : (s.raiseError c cmd).drawNo = s.drawNo := rfl

/-! ### beginInput -/

@[simp] theorem beginInput_gate : (s.beginInput rest).gate = s.gate := rfl

@[simp] theorem beginInput_env : (s.beginInput rest).env = s.env := rfl

@[simp] theorem beginInput_active : (s.beginInput rest).active = s.active := rfl

@[simp] theorem beginInput_errIllegal : (s.beginInput rest).errIllegal = s.errIllegal := rfl

@[simp] theorem beginInput_errValue : (s.beginInput rest).errValue = s.errValue := rfl

@[simp] theorem beginInput_errinfo : (s.beginInput rest).errinfo = s.errinfo := rfl

@[simp] theorem beginInput_note : (s.beginInput rest).note = s.note := rfl

@[simp] theorem beginInput_peakGain : (s.beginInput rest).peakGain = s.peakGain := rfl

@[simp] theorem beginInput_pan : (s.beginInput rest).pan = s.pan := rfl

@[simp] theorem beginInput_position : (s.beginInput rest).position = s.position := rfl

@[simp] theorem beginInput_phase : (s.beginInput rest).phase = s.phase := rfl

@[simp] theorem beginInput_envOut : (s.beginInput rest).envOut = s.envOut := rfl

@[simp] theorem beginInput_accL : (s.beginInput rest).accL = s.accL := rfl

@[simp] theorem beginInput_accR : (s.beginInput rest).accR = s.accR := rfl

@[simp] theorem beginInput_sampleRate : (s.beginInput rest).sampleRate = s.sampleRate := rfl

@[simp] theorem beginInput_attackTime : (s.beginInput rest).attackTime = s.attackTime := rfl

@[simp] theorem beginInput_decayTime : (s.beginInput rest).decayTime = s.decayTime := rfl

@[simp] theorem beginInput_sustainLevel : (s.beginInput rest).sustainLevel = s.sustainLevel := rfl

@[simp] theorem beginInput_releaseTime : (s.beginInput rest).releaseTime = s.releaseTime := rfl

@[simp] theorem beginInput_responses : (s.beginInput rest).responses = s.responses := rfl

@[simp] theorem beginInput_inputs : (s.beginInput rest).inputs = rest := rfl

@[simp] theorem beginInput_drawNo : (s.beginInput rest).drawNo = s.drawNo + 1 := rfl

/-! ### takeResponse -/

@[simp] theorem takeResponse_gate : (s.takeResponse rest).gate = s.gate := rfl

@[simp] theorem takeResponse_env : (s.takeResponse rest).env = s.env := rfl

@[simp] theorem takeResponse_active : (s.takeResponse rest).active = s.active := rfl

@[simp] theorem takeResponse_errIllegal : (s.takeResponse rest).errIllegal = s.errIllegal := rfl

@[simp] theorem takeResponse_errValue : (s.takeResponse rest).errValue = s.errValue := rfl

@[simp] theorem takeResponse_errinfo : (s.takeResponse rest).errinfo = s.errinfo := rfl

@[simp] theorem takeResponse_note : (s.takeResponse rest).note = s.note := rfl

@[simp] theorem takeResponse_peakGain : (s.takeResponse rest).peakGain = s.peakGain := rfl

@[simp] theorem takeResponse_pan : (s.takeResponse rest).pan = s.pan := rfl

@[simp] theorem takeResponse_position : (s.takeResponse rest).position = s.position := rfl

@[simp] theorem takeResponse_phase : (s.takeResponse rest).phase = s.phase := rfl

@[simp] theorem takeResponse_envOut : (s.takeResponse rest).envOut = s.envOut := rfl

@[simp] theorem takeResponse_accL : (s.takeResponse rest).accL = s.accL := rfl

@[simp] theorem takeResponse_accR : (s.takeResponse rest).accR = s.accR := rfl

@[simp] theorem takeResponse_sampleRate : (s.takeResponse rest).sampleRate = s.sampleRate := rfl

@[simp] theorem takeResponse_attackTime : (s.takeResponse rest).attackTime = s.attackTime := rfl

@[simp] theorem takeResponse_decayTime : (s.takeResponse rest).decayTime = s.decayTime := rfl

@[simp] theorem takeResponse_sustainLevel : (s.takeResponse rest).sustainLevel = s.sustainLevel := rfl

@[simp] theorem takeResponse_releaseTime : (s.takeResponse rest).releaseTime = s.releaseTime := rfl

@[simp] theorem takeResponse_responses : (s.takeResponse rest).responses = s.responses.tail := rfl

@[simp] theorem takeResponse_inputs : (s.takeResponse rest).inputs = rest := rfl

@[simp] theorem takeResponse_drawNo : (s.takeResponse rest).drawNo = s.drawNo := rfl

/-! ### present -/

@[simp] theorem present_gate : (s.present cmd).gate = s.gate := rfl

@[simp] theorem present_env : (s.present cmd).env = s.env := rfl

@[simp] theorem present_active : (s.present cmd).active = s.active := rfl

@[simp] theorem present_errIllegal : (s.present cmd).errIllegal = s.errIllegal := rfl

@[simp] theorem present_errValue : (s.present cmd).errValue = s.errValue := rfl

@[simp] theorem present_errinfo : (s.present cmd).errinfo = s.errinfo := rfl

@[simp] theorem present_note : (s.present cmd).note = s.note := rfl

@[simp] theorem present_peakGain : (s.present cmd).peakGain = s.peakGain := rfl

@[simp] theorem present_pan : (s.present cmd).pan = s.pan := rfl

@[simp] theorem present_position : (s.present cmd).position = s.position := rfl

@[simp] theorem present_phase : (s.present cmd).phase = s.phase := rfl

@[simp] theorem present_envOut : (s.present cmd).envOut = s.envOut := rfl

@[simp] theorem present_accL : (s.present cmd).accL = s.accL := rfl

@[simp] theorem present_accR : (s.present cmd).accR = s.accR := rfl

@[simp] theorem present_sampleRate : (s.present cmd).sampleRate = s.sampleRate := rfl

@[simp] theorem present_attackTime : (s.present cmd).attackTime = s.attackTime := rfl

@[simp] theorem present_decayTime : (s.present cmd).decayTime = s.decayTime := rfl

@[simp] theorem present_sustainLevel : (s.present cmd).sustainLevel = s.sustainLevel := rfl

@[simp] theorem present_releaseTime : (s.present cmd).releaseTime = s.releaseTime := rfl

@[simp] theorem present_responses : (s.present cmd).responses = s.responses := rfl

@[simp] theorem present_inputs : (s.present cmd).inputs = .command cmd :: s.inputs := rfl

@[simp] theorem present_drawNo : (s.present cmd).drawNo = s.drawNo := rfl

/-! ### resetInput -/

@[simp] theorem resetInput_gate : (s.resetInput rest).gate = State.reset.gate := rfl

@[simp] theorem resetInput_env : (s.resetInput rest).env = State.reset.env := rfl

@[simp] theorem resetInput_active : (s.resetInput rest).active = State.reset.active := rfl

@[simp] theorem resetInput_errIllegal : (s.resetInput rest).errIllegal = State.reset.errIllegal := rfl

@[simp] theorem resetInput_errValue : (s.resetInput rest).errValue = State.reset.errValue := rfl

@[simp] theorem resetInput_errinfo : (s.resetInput rest).errinfo = State.reset.errinfo := rfl

@[simp] theorem resetInput_note : (s.resetInput rest).note = State.reset.note := rfl

@[simp] theorem resetInput_peakGain : (s.resetInput rest).peakGain = State.reset.peakGain := rfl

@[simp] theorem resetInput_pan : (s.resetInput rest).pan = State.reset.pan := rfl

@[simp] theorem resetInput_position : (s.resetInput rest).position = State.reset.position := rfl

@[simp] theorem resetInput_phase : (s.resetInput rest).phase = State.reset.phase := rfl

@[simp] theorem resetInput_envOut : (s.resetInput rest).envOut = State.reset.envOut := rfl

@[simp] theorem resetInput_accL : (s.resetInput rest).accL = State.reset.accL := rfl

@[simp] theorem resetInput_accR : (s.resetInput rest).accR = State.reset.accR := rfl

@[simp] theorem resetInput_sampleRate : (s.resetInput rest).sampleRate = State.reset.sampleRate := rfl

@[simp] theorem resetInput_attackTime : (s.resetInput rest).attackTime = State.reset.attackTime := rfl

@[simp] theorem resetInput_decayTime : (s.resetInput rest).decayTime = State.reset.decayTime := rfl

@[simp] theorem resetInput_sustainLevel : (s.resetInput rest).sustainLevel = State.reset.sustainLevel := rfl

@[simp] theorem resetInput_releaseTime : (s.resetInput rest).releaseTime = State.reset.releaseTime := rfl

@[simp] theorem resetInput_responses : (s.resetInput rest).responses = State.reset.responses := rfl

@[simp] theorem resetInput_inputs : (s.resetInput rest).inputs = rest := rfl

@[simp] theorem resetInput_drawNo : (s.resetInput rest).drawNo = s.drawNo + 1 := rfl

/-! ### writeReg -/

@[simp] theorem writeReg_gate : (s.writeReg r v).gate = s.gate := by cases r <;> rfl

@[simp] theorem writeReg_env : (s.writeReg r v).env = s.env := by cases r <;> rfl

@[simp] theorem writeReg_active : (s.writeReg r v).active = s.active := by cases r <;> rfl

@[simp] theorem writeReg_errIllegal : (s.writeReg r v).errIllegal = s.errIllegal := by cases r <;> rfl

@[simp] theorem writeReg_errValue : (s.writeReg r v).errValue = s.errValue := by cases r <;> rfl

@[simp] theorem writeReg_errinfo : (s.writeReg r v).errinfo = s.errinfo := by cases r <;> rfl

@[simp] theorem writeReg_note : (s.writeReg r v).note = if r = .note then v.setWidth 8 else s.note := by cases r <;> rfl

@[simp] theorem writeReg_peakGain : (s.writeReg r v).peakGain = if r = .peakGain then F32.normz v else s.peakGain := by cases r <;> rfl

@[simp] theorem writeReg_pan : (s.writeReg r v).pan = if r = .pan then panStored v else s.pan := by cases r <;> rfl

@[simp] theorem writeReg_position : (s.writeReg r v).position = s.position := by cases r <;> rfl

@[simp] theorem writeReg_phase : (s.writeReg r v).phase = s.phase := by cases r <;> rfl

@[simp] theorem writeReg_envOut : (s.writeReg r v).envOut = s.envOut := by cases r <;> rfl

@[simp] theorem writeReg_accL : (s.writeReg r v).accL = if r = .accL then v else s.accL := by cases r <;> rfl

@[simp] theorem writeReg_accR : (s.writeReg r v).accR = if r = .accR then v else s.accR := by cases r <;> rfl

@[simp] theorem writeReg_sampleRate : (s.writeReg r v).sampleRate = if r = .sampleRate then v else s.sampleRate := by cases r <;> rfl

@[simp] theorem writeReg_attackTime : (s.writeReg r v).attackTime = if r = .attackTime then F32.normz v else s.attackTime := by cases r <;> rfl

@[simp] theorem writeReg_decayTime : (s.writeReg r v).decayTime = if r = .decayTime then F32.normz v else s.decayTime := by cases r <;> rfl

@[simp] theorem writeReg_sustainLevel : (s.writeReg r v).sustainLevel = if r = .sustainLevel then F32.normz v else s.sustainLevel := by cases r <;> rfl

@[simp] theorem writeReg_releaseTime : (s.writeReg r v).releaseTime = if r = .releaseTime then F32.normz v else s.releaseTime := by cases r <;> rfl

@[simp] theorem writeReg_responses : (s.writeReg r v).responses = s.responses := by cases r <;> rfl

@[simp] theorem writeReg_inputs : (s.writeReg r v).inputs = s.inputs := by cases r <;> rfl

@[simp] theorem writeReg_drawNo : (s.writeReg r v).drawNo = s.drawNo := by cases r <;> rfl

/-! ### Views -/

/-- A free NaN pattern depends on the draw number alone. -/
theorem nan_eq_of_drawNo {s u : State} (h : s.drawNo = u.drawNo) (site : Site) : s.nan site = u.nan site := by
  unfold nan; rw [h]

/-- A state with no recorded error has both sticky bits clear. -/
theorem noError_iff : s.noError = true ↔ s.errIllegal = false ∧ s.errValue = false := by
  simp [noError]

/-- Raising an error leaves an error recorded. -/
@[simp] theorem raiseError_noError : (s.raiseError c cmd).noError = false := by
  unfold noError
  rw [raiseError_errIllegal, raiseError_errValue]
  by_cases h : c = .value <;> simp [h]

/-- Raising an error while one is recorded keeps ERRINFO. -/
theorem raiseError_errinfo_of_error (h : s.noError = false) : (s.raiseError c cmd).errinfo = s.errinfo := by
  rw [raiseError_errinfo, h]; rfl

end Sys2Proof.Machine.State
end

