-- ==== Sys2Proof/Laws/Step.lean ====
section
/-! SUPPORT. What a step can do, said once: the inversion lemmas of `step`, `exec` and the meanings, which a proof over all steps
cites instead of unfolding them. -/

namespace Sys2Proof.Machine

/-- A step with nothing presented. -/
theorem step_idle {s : State} (h : s.inputs = []) : step s = .next s := by simp [step, h]

/-- A step with an input presented. -/
theorem step_input {s : State} {x : Input} {rest : List Input} (h : s.inputs = x :: rest) :
    step s = runInput x rest s := by simp [step, h]

/-- A step with a legal word presented. -/
theorem step_legal {s : State} {w : Cmd} {rest : List Input} {i : Instr} (h : s.inputs = .command w :: rest)
    (hd : decode w = .legal i) : step s = exec i (s.beginInput rest) := by
  rw [step_input h]; simp [runInput, runCommand, hd]

/-- A step with an illegal word presented. -/
theorem step_illegal {s : State} {w : Cmd} {rest : List Input} {c : Cause} (h : s.inputs = .command w :: rest)
    (hd : decode w = .illegal c) : step s = .next ((s.beginInput rest).raiseError c w) := by
  rw [step_input h]; simp [runInput, runCommand, hd]

/-- A step with reset asserted. -/
theorem step_reset {s : State} {rest : List Input} (h : s.inputs = .reset :: rest) : step s = .next (s.resetInput rest) := by
  rw [step_input h]; rfl

/-- A step with a response taken. -/
theorem step_take {s : State} {rest : List Input} (h : s.inputs = .take :: rest) : step s = .next (s.takeResponse rest) := by
  rw [step_input h]; rfl

/-- Everything a step can do. -/
theorem step_cases {s t : State} (h : step s = .next t) :
    (s.inputs = [] ∧ t = s) ∨
    (∃ w rest i, s.inputs = .command w :: rest ∧ decode w = .legal i ∧ exec i (s.beginInput rest) = .next t) ∨
    (∃ w rest c, s.inputs = .command w :: rest ∧ decode w = .illegal c ∧ t = (s.beginInput rest).raiseError c w) ∨
    (∃ rest, s.inputs = .reset :: rest ∧ t = s.resetInput rest) ∨
    (∃ rest, s.inputs = .take :: rest ∧ t = s.takeResponse rest) := by
  rcases hi : s.inputs with _ | ⟨x, rest⟩
  · rw [step_idle hi] at h; cases h; exact Or.inl ⟨rfl, rfl⟩
  · cases x with
    | command w =>
      cases hd : decode w with
      | legal i => rw [step_legal hi hd] at h; exact Or.inr (Or.inl ⟨w, rest, i, rfl, hd, h⟩)
      | illegal c => rw [step_illegal hi hd] at h; cases h; exact Or.inr (Or.inr (Or.inl ⟨w, rest, c, rfl, hd, rfl⟩))
    | reset => rw [step_reset hi] at h; cases h; exact Or.inr (Or.inr (Or.inr (Or.inl ⟨rest, rfl, rfl⟩)))
    | take => rw [step_take hi] at h; cases h; exact Or.inr (Or.inr (Or.inr (Or.inr ⟨rest, rfl, rfl⟩)))

/-! ### The meanings -/

theorem execKeyon_accepted {n : Byte} {g : Word} {s : State} (h : gainAccepted g = true) :
    execKeyon n g s = .next { s with
      note := n, peakGain := F32.normz g, active := true, gate := .low, env := .silence, position := 0, phase := 0, envOut := 0 } := by
  simp [execKeyon, h]

theorem execKeyon_refused {n : Byte} {g : Word} {s : State} (h : gainAccepted g = false) :
    execKeyon n g s = .next (s.raiseError .value (encode (.keyon n g))) := by simp [execKeyon, h]

theorem execRestrike_accepted {g : Word} {s : State} (h : gainAccepted g = true) :
    execRestrike g s = .next { s with peakGain := F32.normz g, active := true } := by simp [execRestrike, h]

theorem execRestrike_refused {g : Word} {s : State} (h : gainAccepted g = false) :
    execRestrike g s = .next (s.raiseError .value (encode (.restrike g))) := by simp [execRestrike, h]

theorem execWrreg_unmapped {a : Byte} {v : Word} {s : State} (h : regOfAddr a = none) :
    execWrreg a v s = .next (s.raiseError .unmapped (encode (.wrreg a v))) := by simp [execWrreg, h]

theorem execWrreg_readonly {a : Byte} {v : Word} {s : State} {r : Reg} (h : regOfAddr a = some r) (hr : regReadOnly r = true) :
    execWrreg a v s = .next (s.raiseError .readonly (encode (.wrreg a v))) := by simp [execWrreg, h, hr]

theorem execWrreg_accepted {a : Byte} {v : Word} {s : State} {r : Reg} (h : regOfAddr a = some r) (hr : regReadOnly r = false)
    (hv : regAccepts r v = true) : execWrreg a v s = .next (s.writeReg r v) := by simp [execWrreg, h, hr, hv]

theorem execWrreg_refused {a : Byte} {v : Word} {s : State} {r : Reg} (h : regOfAddr a = some r) (hr : regReadOnly r = false)
    (hv : regAccepts r v = false) : execWrreg a v s = .next (s.raiseError .value (encode (.wrreg a v))) := by
  simp [execWrreg, h, hr, hv]

/-- Everything a WRREG can do. -/
theorem execWrreg_cases {a : Byte} {v : Word} {s t : State} (h : execWrreg a v s = .next t) :
    (∃ c, c ≠ .none ∧ c ≠ .opcode ∧ c ≠ .reserved ∧ t = s.raiseError c (encode (.wrreg a v))) ∨
    (∃ r, regOfAddr a = some r ∧ regReadOnly r = false ∧ regAccepts r v = true ∧ t = s.writeReg r v) := by
  cases hm : regOfAddr a with
  | none => rw [execWrreg_unmapped hm] at h; cases h; exact Or.inl ⟨_, by decide, by decide, by decide, rfl⟩
  | some r =>
    cases hr : regReadOnly r with
    | true => rw [execWrreg_readonly hm hr] at h; cases h; exact Or.inl ⟨_, by decide, by decide, by decide, rfl⟩
    | false =>
      cases hv : regAccepts r v with
      | true => rw [execWrreg_accepted hm hr hv] at h; cases h; exact Or.inr ⟨r, rfl, hr, hv, rfl⟩
      | false => rw [execWrreg_refused hm hr hv] at h; cases h; exact Or.inl ⟨_, by decide, by decide, by decide, rfl⟩

theorem execRdreg_unmapped {a : Byte} {s : State} (h : regOfAddr a = none) :
    execRdreg a s = .next ((s.raiseError .unmapped (encode (.rdreg a))).respond 0) := by simp [execRdreg, h]

theorem execRdreg_mapped {a : Byte} {s : State} {r : Reg} (h : regOfAddr a = some r) :
    execRdreg a s = .next (s.respond (s.readReg r)) := by simp [execRdreg, h]

/-- The address of a register names it. -/
@[simp] theorem regOfAddr_addrOfReg (r : Reg) : regOfAddr (addrOfReg r) = some r := by cases r <;> decide

/-- A register that accepts some value is not read-only. -/
theorem regReadOnly_of_accepts {r : Reg} {v : Word} (h : regAccepts r v = true) : regReadOnly r = false := by
  cases r <;> simp_all [regAccepts, regReadOnly]

/-- Raising the same error again, or storing the same value again, changes nothing more. -/
theorem raiseError_raiseError (s : State) (c : Cause) (w : Cmd) : (s.raiseError c w).raiseError c w = s.raiseError c w := by
  simp only [State.raiseError, State.noError]
  by_cases hc : c = .value <;> simp [hc]

theorem writeReg_writeReg (s : State) (r : Reg) (v : Word) : (s.writeReg r v).writeReg r v = s.writeReg r v := by
  cases r <;> rfl

/-- Raising an error keeps the error record and the sticky bits in agreement. -/
theorem errorLegal_raiseError {s : State} {c : Cause} {w : Cmd} (hc : c ≠ .none) (h : s.errorLegal = true) :
    (s.raiseError c w).errorLegal = true := by
  unfold State.errorLegal at h ⊢
  by_cases hn : s.noError = true
  · have hn' := hn
    simp only [State.raiseError, hn, if_true]
    cases c <;> simp_all
  · have : (s.raiseError c w).errinfo = s.errinfo := State.raiseError_errinfo_of_error _ _ _ (by simpa using hn)
    rw [this]
    cases hcause : s.errinfo.cause <;> simp only [hcause] at h ⊢ <;> simp_all [State.raiseError]

/-- The next state of every command. -/
theorem exec_completes (i : Instr) (s : State) : ∃ t, exec i s = .next t := by
  cases i with
  | nop => exact ⟨_, rfl⟩
  | tick => exact ⟨_, rfl⟩
  | keyoff => exact ⟨_, rfl⟩
  | clear => exact ⟨_, rfl⟩
  | keyon n g =>
    cases hg : gainAccepted g
    · exact ⟨_, execKeyon_refused hg⟩
    · exact ⟨_, execKeyon_accepted hg⟩
  | restrike g =>
    cases hg : gainAccepted g
    · exact ⟨_, execRestrike_refused hg⟩
    · exact ⟨_, execRestrike_accepted hg⟩
  | wrreg a v =>
    cases hm : regOfAddr a with
    | none => exact ⟨_, execWrreg_unmapped hm⟩
    | some r =>
      cases hr : regReadOnly r with
      | true => exact ⟨_, execWrreg_readonly hm hr⟩
      | false =>
        cases hv : regAccepts r v
        · exact ⟨_, execWrreg_refused hm hr hv⟩
        · exact ⟨_, execWrreg_accepted hm hr hv⟩
  | rdreg a =>
    cases hm : regOfAddr a with
    | none => exact ⟨_, execRdreg_unmapped hm⟩
    | some r => exact ⟨_, execRdreg_mapped hm⟩

end Sys2Proof.Machine
end

