-- ==== Sys2Proof/Laws/Values.lean ====
section
/-! SUPPORT. Bounds on the values the rules compute: stored operands, the derived registers, the phase sum, the pan gains. -/

namespace Sys2Proof.Machine

namespace F32

theorem infMag_eq : infMag = 0x7F800000 := rfl

theorem scaledMag_one : scaledMag 0x3F800000 = unit := by decide +kernel

/-! ### Stored operands (R58, R65, R66) -/

theorem isFinite_normz {v : Word} (h : isFinite v = true) : isFinite (normz v) = true := by
  unfold normz
  split
  · decide
  · exact h

theorem inUnit_normz {v : Word} (h : inUnit v = true) : inUnit (normz v) = true := by
  unfold normz
  split
  · decide
  · exact h

/-- A finite value clamped into [0, 1] lies there. -/
theorem inUnit_clamp {v : Word} (h : isFinite v = true) : inUnit (F32.clamp v 0 0x3F800000) = true := by
  have hm := isFinite_iff.1 h
  have hu : ∀ x, inUnit x = (le 0 x && le x 0x3F800000) := fun _ => rfl
  have hmax : le 0 (F32.max v 0) = true := by
    unfold F32.max
    split
    · assumption
    · decide
  unfold F32.clamp F32.min
  split
  · rename_i hl; rw [hu, hmax, hl]; rfl
  · decide

/-! ### Products, quotients and roots -/

section

variable {nan a b : Word}

theorem div_nan_irrelevant {nan' : Word} (ha : mag a < infMag) (hb : mag b < infMag) (h0 : 0 < mag b) :
    div nan a b = div nan' a b := by rw [div_finite ha hb h0, div_finite ha hb h0]

theorem mul_nan_irrelevant {nan' : Word} (ha : mag a ≤ infMag) (hb : mag b ≤ infMag) (a0 : 0 < mag a) (b0 : 0 < mag b) :
    mul nan a b = mul nan' a b := by
  have za : isZero a = false := by simp [isZero]; omega
  have zb : isZero b = false := by simp [isZero]; omega
  simp [mul, isNaN_false ha, isNaN_false hb, za, zb]

/-- A sum with +0: a nonzero datum is kept, infinities included, and a zero of either sign gives +0. -/
theorem add_posZero (ha : mag a ≤ infMag) : add nan a 0 = if isZero a then 0 else a := by
  have z : mag (0 : Word) = 0 := by decide
  by_cases hi : mag a = infMag
  · have h1 : isInf a = true := by simp [isInf, hi]
    have h2 : isInf (0 : Word) = false := by decide
    have h3 : isZero a = false := by simp [isZero, hi]; decide
    have h4 : isNaN (0 : Word) = false := by decide
    simp only [add, isNaN_false ha, h1, h2, h3, h4, Bool.or_self, Bool.false_and, Bool.false_eq_true, if_false, if_true]
  · by_cases h0 : mag a = 0
    · have hz : isZero a = true := by simp [isZero, h0]
      have hs : scaled a = 0 := by simp [scaled, h0]
      have hs0 : scaled (0 : Word) = 0 := by decide
      have hn : signBit (0 : Word) = false := by decide
      rw [add_finite (by omega) (by decide), hs, hs0, hn, hz]
      simp [zero]; decide
    · have hz : isZero a = false := by simp [isZero, h0]
      rw [hz, add_zero_right (by omega) (by omega) z]; rfl

/-- A product of +0 with a finite datum whose sign bit is clear is +0. -/
theorem mul_posZero (hb : mag b < infMag) (hs : signBit b = false) : mul nan 0 b = 0 := by
  have z : scaledMag (mag (0 : Word)) = 0 := by decide
  have hn : signBit (0 : Word) = false := by decide
  rw [mul_finite (by decide) hb, z, hn, hs, Nat.zero_mul]
  simp [roundRatio]; decide

/-- A product with a zero is a zero. -/
theorem mag_mul_zero (ha : mag a < infMag) (hb : mag b < infMag) (h : mag a = 0 ∨ mag b = 0) : mag (mul nan a b) = 0 := by
  rw [mul_finite ha hb, mag_roundRatio]
  rcases h with h | h <;> simp [h]

/-- A product of positive data, infinities included, is no NaN and not negative. -/
theorem mul_of_pos (ha : signBit a = false) (hb : signBit b = false) (a1 : mag a ≤ infMag) (b1 : mag b ≤ infMag)
    (a0 : 0 < mag a) (b0 : 0 < mag b) : signBit (mul nan a b) = false ∧ mag (mul nan a b) ≤ infMag := by
  have za : isZero a = false := by simp [isZero]; omega
  have zb : isZero b = false := by simp [isZero]; omega
  unfold mul
  simp only [isNaN_false a1, isNaN_false b1, za, zb, ha, hb, Bool.or_self, Bool.false_eq_true, if_false, bne_self_eq_false]
  split
  · exact ⟨by decide, by decide⟩
  · exact ⟨signBit_roundRatio _ _ _, by rw [mag_roundRatio]; exact roundMag_le _ _⟩

/-- A product of a positive datum with a value of at least 1.0 is positive: no underflow. -/
theorem mag_mul_pos (ha : 0x3F800000 ≤ mag a) (a1 : mag a < infMag) (b1 : mag b ≤ infMag) (b0 : 0 < mag b) :
    0 < mag (mul nan a b) := by
  have za : isZero a = false := by simp [isZero]; omega
  have zb : isZero b = false := by simp [isZero]; omega
  unfold mul
  simp only [isNaN_false a1.le, isNaN_false b1, za, zb, Bool.or_self, Bool.false_eq_true, if_false]
  split
  · have : mag (inf (signBit a != signBit b)) = infMag := mag_pack _ _ (by decide)
    rw [this]; decide
  · rename_i hi
    rw [mag_roundRatio]
    simp [isInf] at hi
    refine lt_of_lt_of_le b0 (le_roundMag_of_le unit_pos b1 ?_)
    rw [Nat.mul_comm, ← scaledMag_one]
    exact Nat.mul_le_mul_right _ (scaledMag_le_iff.2 ha)

/-- The square root of a value in [0, 1] lies in [0, 1]. -/
theorem sqrt_unit (h1 : mag a ≤ 0x3F800000) (h2 : signBit a = false ∨ mag a = 0) :
    mag (sqrt nan a) ≤ 0x3F800000 ∧ (signBit (sqrt nan a) = false ∨ mag (sqrt nan a) = 0) := by
  have i := infMag_eq
  by_cases h0 : mag a = 0
  · have : sqrt nan a = a := by simp [sqrt, isZero, h0, isNaN]
    rw [this]; exact ⟨h1, h2⟩
  · have hs : signBit a = false := h2.resolve_right h0
    have hu : scaledMag (mag a) ≤ unit := by rw [← scaledMag_one]; exact scaledMag_le_iff.2 h1
    have hm := sqrtMag_le_one hu
    rw [sqrt_finite (by omega) (by omega) hs, mag_pack _ _ (by omega), signBit_pack _ _ (by omega)]
    exact ⟨hm, Or.inl rfl⟩

/-- The square root of a value in [0, 1] whose sign bit is clear has its sign bit clear. -/
theorem signBit_sqrt (h1 : mag a ≤ 0x3F800000) (h2 : signBit a = false) : signBit (sqrt nan a) = false := by
  have i := infMag_eq
  by_cases h0 : mag a = 0
  · have : sqrt nan a = a := by simp [sqrt, isZero, h0, isNaN]
    rw [this]; exact h2
  · have hu : scaledMag (mag a) ≤ unit := by rw [← scaledMag_one]; exact scaledMag_le_iff.2 h1
    have hm := sqrtMag_le_one hu
    rw [sqrt_finite (by omega) (by omega) h2, signBit_pack _ _ (by omega)]

/-- `1.0 - x` for x in [0, 1] lies in [0, 1] and is +0 at 1.0. -/
theorem one_sub_unit (h : inUnit a = true) :
    signBit (sub nan 0x3F800000 a) = false ∧ mag (sub nan 0x3F800000 a) ≤ 0x3F800000 ∧
      (mag a = 0x3F800000 → mag (sub nan 0x3F800000 a) = 0) := by
  obtain ⟨h1, h2⟩ := inUnit_iff.1 h
  have i := infMag_eq
  have om : mag 0x3F800000 = 0x3F800000 := by decide
  have os : signBit 0x3F800000 = false := by decide
  have ov : scaled 0x3F800000 = (unit : Int) := by decide +kernel
  have hs : scaled a = scaledMag (mag a) := by unfold scaled; rcases h2 with h2 | h2 <;> simp [h2]
  have hle : scaledMag (mag a) ≤ unit := by rw [← scaledMag_one]; exact scaledMag_le_iff.2 h1
  rw [sub_finite (by rw [om, i]; omega) (by omega), ov, hs, os]
  by_cases he : (unit : Int) - scaledMag (mag a) = 0
  · rw [if_pos he]
    exact ⟨by rw [signBit_zero]; rfl, by rw [mag_zero]; omega, fun _ => mag_zero _⟩
  · rw [if_neg he]
    have hn : ((unit : Int) - scaledMag (mag a) < 0) = False := by simp; exact hle
    refine ⟨by rw [signBit_roundRatio]; simp [hn], ?_, fun hx => ?_⟩
    · rw [mag_roundRatio]
      apply roundMag_le_of_le one_pos (by rw [i]; omega)
      rw [scaledMag_one]
      omega
    · exfalso
      apply he
      rw [hx, scaledMag_one]
      simp

/-- A value in [0, 1] over one that is at least the least normal value is finite and not negative: the rates of R75. -/
theorem div_unit_normal (ha : mag a ≤ 0x3F800000) (hb : 0x00800000 ≤ mag b) (hb' : mag b < infMag) (hsb : signBit b = false)
    (hsa : signBit a = false ∨ mag a = 0) : isFinite (div nan a b) = true ∧ ge (div nan a b) 0 = true := by
  have i := infMag_eq
  have hm : mag (div nan a b) ≤ 0x7E800000 :=
    mag_div_le ha hb (by rw [i]; omega) hb' (by omega) (by rw [i]; omega) (by decide +kernel)
  refine ⟨isFinite_iff.2 (by omega), ge_zero_iff.2 ⟨by omega, ?_⟩⟩
  rcases hsa with h | h
  · left; rw [signBit_div (by omega) hb' (by omega), h, hsb]; rfl
  · right
    rw [div_finite (by omega) hb' (by omega), mag_roundRatio, h]
    simp

/-- The largest finite value plus a value below 2π is still finite (R89). -/
theorem phase_sum_finite (ha : mag a < 0x40C90FDB) (hb : mag b < infMag) : mag (add nan a b) < infMag := by
  have i := infMag_eq
  rw [add_finite (by omega) hb]
  split
  · rw [mag_zero]; omega
  · rw [mag_roundRatio]
    apply lt_of_le_of_ne (roundMag_le _ _)
    rw [Ne, roundMag_overflow one_pos, not_le, Nat.mul_one]
    have h1 : scaledMag (mag a) ≤ scaledMag 0x40C90FDB := scaledMag_le_iff.2 ha.le
    have h2 : scaledMag (mag b) ≤ scaledMag 0x7F7FFFFF := scaledMag_le_iff.2 (by omega)
    have h3 : scaledMag 0x40C90FDB + scaledMag 0x7F7FFFFF < 2 ^ 277 - 2 ^ 252 := by decide +kernel
    have h4 := natAbs_scaled a
    have h5 := natAbs_scaled b
    refine lt_of_le_of_lt ?_ h3
    generalize scaledMag 0x40C90FDB = u at *
    generalize scaledMag 0x7F7FFFFF = v at *
    omega

end

/-- A sample rate that is not 0, as a binary32 value. -/
theorem ofNat_rate {k : Nat} (h0 : 0 < k) (h : k ≤ 2 ^ 32) :
    signBit (ofNat k) = false ∧ 0x3F800000 ≤ mag (ofNat k) ∧ mag (ofNat k) ≤ 0x4F800000 := by
  unfold ofNat
  rw [signBit_roundRatio, mag_roundRatio]
  refine ⟨rfl, le_roundMag_of_le one_pos (by decide) ?_, roundMag_le_of_le one_pos (by decide) ?_⟩
  · rw [Nat.mul_one, scaledMag_one]; exact Nat.le_mul_of_pos_left _ h0
  · have : scaledMag 0x4F800000 * 1 = 2 ^ 32 * unit := by decide +kernel
    rw [this]; exact Nat.mul_le_mul_right _ h

/-- Positive and finite, on the pattern. -/
theorem mag_of_pos {x : Word} (h1 : isFinite x = true) (h2 : lt 0 x = true) : signBit x = false ∧ 0 < mag x ∧ mag x < infMag := by
  have h1' := isFinite_iff.1 h1
  have k0 : key 0 = 0 := by decide
  rw [lt_iff, k0] at h2
  unfold key at h2
  cases hs : signBit x
  · simp [hs] at h2; exact ⟨rfl, by omega, h1'⟩
  · simp [hs] at h2; omega

end F32

open F32

/-- An accepted gain is accepted as it is stored. -/
theorem gainAccepted_normz {v : Word} (h : gainAccepted v = true) : gainAccepted (normz v) = true := by
  unfold normz
  split
  · decide
  · exact h

/-- A finite time, limited below by EPSILON, is positive, normal and finite (R75). -/
theorem max_EPSILON {x : Word} (hx : isFinite x = true) :
    signBit (F32.max x EPSILON) = false ∧ 0x00800000 ≤ mag (F32.max x EPSILON) ∧ mag (F32.max x EPSILON) < infMag := by
  obtain ⟨h1, h2⟩ := EPSILON_normal
  obtain ⟨h3, h4⟩ := of_toNat_lt (w := EPSILON) (by omega)
  have i := infMag_eq
  unfold F32.max
  split
  · rename_i h
    have hm := isFinite_iff.1 hx
    rw [ge, le_iff] at h
    obtain ⟨_, _, h⟩ := h
    unfold key at h
    rw [h3] at h
    cases hs : signBit x
    · simp [hs] at h; exact ⟨rfl, by omega, by omega⟩
    · simp [hs] at h; omega
  · exact ⟨h3, by omega, by omega⟩

/-! ### Derived registers (R85 to R87) -/

section

variable {s : State}

theorem toNat_pos {w : Word} (h : w ≠ 0) : 0 < w.toNat := by
  rcases Nat.eq_zero_or_pos w.toNat with h1 | h1
  · exact absurd (BitVec.eq_of_toNat_eq (by simpa using h1)) h
  · exact h1

/-- DT lies in [2^-32, 1]. -/
theorem dt_bounds (h : s.sampleRate ≠ 0) : signBit s.dt = false ∧ 0x2F800000 ≤ mag s.dt ∧ mag s.dt ≤ 0x3F800000 := by
  obtain ⟨k1, k2, k3⟩ := ofNat_rate (toNat_pos h) (by have := s.sampleRate.isLt; omega)
  have i := infMag_eq
  have o : mag one = 0x3F800000 := by decide
  have o' : signBit one = false := by decide
  unfold State.dt
  refine ⟨by rw [signBit_div (by omega) (by omega) (by omega), k1, o']; rfl, ?_, ?_⟩
  · exact le_mag_div (A := 0x3F800000) (B := 0x4F800000) (by omega) k3 (by omega) (by omega) (by omega) (by omega)
      (by decide +kernel)
  · exact mag_div_le (A := 0x3F800000) (B := 0x3F800000) (by omega) k2 (by omega) (by omega) (by omega) (by omega)
      (by decide +kernel)

/-- `(NOTE - 69) / 12.0` over the 256 notes. -/
theorem noteRatio_table : ∀ n : Fin 256,
    mag (ofInt ((n.val : Int) - 69)) < infMag ∧ le 0xC0C00000 (div 0 (ofInt ((n.val : Int) - 69)) 0x41400000) = true ∧
    le (div 0 (ofInt ((n.val : Int) - 69)) 0x41400000) 0x41800000 = true := by decide +kernel

theorem noteRatio_eq (s : State) : s.noteRatio = div 0 (ofInt ((s.note.toNat : Int) - 69)) 0x41400000 :=
  div_nan_irrelevant (noteRatio_table ⟨s.note.toNat, s.note.isLt⟩).1 (by decide) (by decide)

/-- EXP2 of a note's ratio is finite and positive (R12, R86). -/
theorem EXP2_noteRatio (s : State) :
    signBit (EXP2 s.noteRatio) = false ∧ 0 < mag (EXP2 s.noteRatio) ∧ mag (EXP2 s.noteRatio) < infMag := by
  obtain ⟨_, h1, h2⟩ := noteRatio_table ⟨s.note.toNat, s.note.isLt⟩
  rw [← noteRatio_eq s] at h1 h2
  obtain ⟨e1, e2⟩ := EXP2_finite h1 h2
  exact mag_of_pos e1 e2

/-- FREQ is positive and no NaN; it may overflow to the infinity (log 1). -/
theorem freq_bounds (s : State) : signBit s.freq = false ∧ 0 < mag s.freq ∧ mag s.freq ≤ infMag := by
  obtain ⟨p1, p2, p3⟩ := EXP2_noteRatio s
  obtain ⟨h1, h2⟩ := mul_of_pos (nan := s.nan .freq) (a := 0x43DC0000) (b := EXP2 s.noteRatio) (by decide) p1 (by decide) p3.le
    (by decide) p2
  exact ⟨h1, mag_mul_pos (by decide) (by decide) p3.le p2, h2⟩

/-- Neither product of PHASE_INC is a NaN, so PHASE_INC does not depend on the free NaN patterns. -/
theorem phaseInc_congr {u : State} (h : s.sampleRate ≠ 0) (h1 : s.note = u.note) (h2 : s.sampleRate = u.sampleRate) :
    s.phaseInc = u.phaseInc := by
  have i := infMag_eq
  obtain ⟨_, k2, k3⟩ := ofNat_rate (toNat_pos h) (by have := s.sampleRate.isLt; omega)
  obtain ⟨_, p2, p3⟩ := EXP2_noteRatio s
  obtain ⟨f1, f2, f3⟩ := freq_bounds s
  obtain ⟨_, d2, d3⟩ := dt_bounds h
  have g1 := mul_of_pos (nan := s.nan .radiansPerSecond) (a := TWO_PI) (by decide) f1 (by decide) f3 (by decide) f2
  have g2 : 0 < mag (mul (s.nan .radiansPerSecond) TWO_PI s.freq) := mag_mul_pos (by decide) (by decide) f3 f2
  have hr : s.noteRatio = u.noteRatio := by rw [noteRatio_eq, noteRatio_eq, h1]
  have hdt : s.dt = u.dt := by
    unfold State.dt; rw [← h2]; exact div_nan_irrelevant (by decide) (by omega) (by omega)
  have hf : s.freq = u.freq := by
    unfold State.freq; rw [← hr]; exact mul_nan_irrelevant (by decide) p3.le (by decide) p2
  unfold State.phaseInc
  rw [← hdt, ← hf, mul_nan_irrelevant (nan := u.nan .radiansPerSecond) (nan' := s.nan .radiansPerSecond) (by decide) f3 (by decide) f2]
  exact mul_nan_irrelevant g1.2 (by omega) g2 (by omega)

/-! ### The envelope (R77 to R81) -/

/-- The step that enters or keeps Silence leaves the position at +0 (R34 (c)). -/
theorem adsrStep_silence {env : Env} {pos : Word} {g : Gate} (h : (adsrStep s env pos g).1 = .silence) :
    (adsrStep s env pos g).2 = 0 := by
  cases env with
  | silence => simp only [adsrStep, silenceStep] at h ⊢; split_ifs at h ⊢; simp_all
  | attack => simp only [adsrStep, attackStep] at h ⊢; split_ifs at h ⊢
  | decay => simp only [adsrStep, decayStep] at h ⊢; split_ifs at h ⊢
  | sustain => simp only [adsrStep, sustainStep] at h ⊢; split_ifs at h ⊢
  | release => simp only [adsrStep, releaseStep] at h ⊢; split_ifs at h ⊢; simp_all

/-- From a lowish Gate only a rising edge leads to a Gate that is not lowish (R72). -/
theorem lowish_gateNext {g : Gate} {held : Bool} (hg : lowish g = true) (h : gateNext g held ≠ .risingEdge) :
    lowish (gateNext g held) = true := by
  cases g <;> cases held <;> simp_all [gateNext, lowish, highish]

/-- The step that enters or keeps Silence or Release sees a lowish Gate, where those states were held with one (R77). -/
theorem adsrStep_lowish {env : Env} {pos : Word} {g : Gate} {held : Bool}
    (hg : env = .silence ∨ env = .release → lowish g = true)
    (h : (adsrStep s env pos (gateNext g held)).1 = .silence ∨ (adsrStep s env pos (gateNext g held)).1 = .release) :
    lowish (gateNext g held) = true := by
  cases env with
  | silence =>
    refine lowish_gateNext (hg (Or.inl rfl)) fun hr => ?_
    simp [adsrStep, silenceStep, hr] at h
  | attack => simp only [adsrStep, attackStep] at h; split_ifs at h <;> simp at h
  | decay => simp only [adsrStep, decayStep] at h; split_ifs at h <;> simp at h
  | sustain =>
    simp only [adsrStep, sustainStep] at h
    split_ifs at h
    · assumption
    · simp at h
    · simp at h
  | release =>
    refine lowish_gateNext (hg (Or.inr rfl)) fun hr => ?_
    simp [adsrStep, releaseStep, hr] at h

end

end Sys2Proof.Machine
end

