-- ==== Sys2Proof/Machine/Assembler.lean ====
section
/-! DEFINITION. The assembler of R56 and R57: a source line becomes commands, a pseudo-instruction its expansion. The conventions
the rules leave open are in log 18. -/

namespace Sys2Proof.Machine

/-- The number an integer literal stands for. -/
def intValue : Literal → Nat
  | .decimal _ n _ => n
  | .hex n => n
  | .pattern n => n

/-- The binary32 pattern a literal stands for: a decimal literal rounds to nearest even, a raw pattern is itself (R56). -/
def realValue : Literal → Word
  | .decimal negative n scale => F32.ofDecimal negative n scale
  | .hex n => BitVec.ofNat 32 n
  | .pattern n => BitVec.ofNat 32 n

/-- The address of a register reference (R38, R56). -/
def refAddr : RegRef → Byte
  | .named r => addrOfReg r
  | .address a => BitVec.ofNat 8 a

/-- The D field of `WRREG <reg>, <value>`: an integer for NOTE and SAMPLE_RATE, a binary32 pattern for every other (R56). -/
def refValue (r : RegRef) (v : Literal) : Word := if r.isInteger then BitVec.ofNat 32 (intValue v) else realValue v

/-- `WRREG` of a named register. -/
def wr (r : Reg) (v : Literal) : Instr := .wrreg (addrOfReg r) (refValue (.named r) v)

/-- `RDREG` of a named register. -/
def rd (r : Reg) : Instr := .rdreg (addrOfReg r)

/-- The commands of a well-formed source line (R56, R57). -/
def expand : Asm → List Instr
  | .nop => [.nop]
  | .tick => [.tick]
  | .keyon note gain => [.keyon (BitVec.ofNat 8 (intValue note)) (realValue gain)]
  | .restrike gain => [.restrike (realValue gain)]
  | .keyoff => [.keyoff]
  | .wrreg r v => [.wrreg (refAddr r) (refValue r v)]
  | .rdreg r => [.rdreg (refAddr r)]
  | .clear => [.clear]
  | .config sr at' dt sl rt =>
    [wr .sampleRate sr, wr .attackTime at', wr .decayTime dt, wr .sustainLevel sl, wr .releaseTime rt]
  | .loadacc l r => [wr .accL l, wr .accR r]
  | .readacc => [rd .accL, rd .accR]
  | .setpan p => [wr .pan p]
  | .frame l r => [wr .accL l, wr .accR r, .tick, rd .accL, rd .accR]

/-- The commands of a source line; none where the assembler refuses it (R56). -/
def assemble (a : Asm) : Option (List Instr) := if a.wellFormed then some (expand a) else none

/-! ### Reading source text -/

/-- The pieces of a text between the occurrences of a separator. -/
def splitAt (sep : Char) : List Char → List (List Char)
  | [] => [[]]
  | c :: rest =>
    match splitAt sep rest with
    | [] => [[]]
    | p :: ps => if c = sep then [] :: p :: ps else (c :: p) :: ps

/-- A blank: a space or a tab. -/
def isBlank (c : Char) : Bool := c = ' ' || c = '\t'

/-- A text without the blanks at its ends. -/
def trim (t : List Char) : List Char := ((t.dropWhile isBlank).reverse.dropWhile isBlank).reverse

/-- The value of a digit in a base of at most 16. -/
def digit (base : Nat) (c : Char) : Option Nat :=
  let v :=
    if '0'.toNat ≤ c.toNat ∧ c.toNat ≤ '9'.toNat then c.toNat - '0'.toNat
    else if 'A'.toNat ≤ c.toNat ∧ c.toNat ≤ 'F'.toNat then c.toNat - 'A'.toNat + 10
    else if 'a'.toNat ≤ c.toNat ∧ c.toNat ≤ 'f'.toNat then c.toNat - 'a'.toNat + 10
    else 16
  if v < base then some v else none

/-- The digits of a number read after `acc`. -/
def digitsFrom (base acc : Nat) : List Char → Option Nat
  | [] => some acc
  | c :: rest => (digit base c).bind (fun d => digitsFrom base (acc * base + d) rest)

/-- A nonempty run of digits. -/
def digits (base : Nat) (t : List Char) : Option Nat := if t.isEmpty then none else digitsFrom base 0 t

/-- A decimal literal without its sign: digits, with an optional point and digits after it. -/
def decimalBody (negative : Bool) (t : List Char) : Option Literal :=
  match splitAt '.' t with
  | [whole] => (digits 10 whole).map (fun n => .decimal negative n 0)
  | [whole, fraction] =>
    if whole.isEmpty || fraction.isEmpty then none
    else (digits 10 (whole ++ fraction)).map (fun n => .decimal negative n fraction.length)
  | _ => none

/-- A literal of the source (R56): `f:0x…`, `0x…`, or a decimal literal with an optional minus sign. -/
def parseLiteral : List Char → Option Literal
  | 'f' :: ':' :: '0' :: 'x' :: t => (digits 16 t).map .pattern
  | '0' :: 'x' :: t => (digits 16 t).map .hex
  | '-' :: t => decimalBody true t
  | t => decimalBody false t

/-- The names of the registers (R38). -/
def regNames : List (List Char × Reg) :=
  [("STATUS".toList, .status), ("ERRINFO".toList, .errinfo), ("NOTE".toList, .note), ("PEAK_GAIN".toList, .peakGain),
   ("PAN".toList, .pan), ("POSITION".toList, .position), ("PHASE".toList, .phase), ("ENV_OUT".toList, .envOut),
   ("ACC_L".toList, .accL), ("ACC_R".toList, .accR), ("SAMPLE_RATE".toList, .sampleRate),
   ("ATTACK_TIME".toList, .attackTime), ("DECAY_TIME".toList, .decayTime), ("SUSTAIN_LEVEL".toList, .sustainLevel),
   ("RELEASE_TIME".toList, .releaseTime), ("DT".toList, .dt), ("ATTACK_RATE".toList, .attackRate),
   ("DECAY_RATE".toList, .decayRate), ("RELEASE_RATE".toList, .releaseRate), ("FREQ".toList, .freq),
   ("PHASE_INC".toList, .phaseInc)]

/-- A hex address, with or without `0x`. -/
def parseAddress : List Char → Option RegRef
  | '0' :: 'x' :: t => (digits 16 t).map .address
  | t => (digits 16 t).map .address

/-- A register reference: a name of R38, else a hex address (R56). -/
def parseRef (t : List Char) : Option RegRef :=
  match regNames.lookup t with
  | some r => some (.named r)
  | none => parseAddress t

/-- The text after the mnemonic, as its operands. -/
def operandsOf (t : List Char) : List (List Char) :=
  if (trim t).isEmpty then [] else (splitAt ',' t).map trim

/-- A line of one operand. -/
def parse1 (f : Literal → Asm) : List (List Char) → Option Asm
  | [a] => (parseLiteral a).map f
  | _ => none

/-- A line of two operands. -/
def parse2 (f : Literal → Literal → Asm) : List (List Char) → Option Asm
  | [a, b] => (parseLiteral a).bind (fun x => (parseLiteral b).map (f x))
  | _ => none

/-- A line with no operand. -/
def parse0 (a : Asm) : List (List Char) → Option Asm
  | [] => some a
  | _ => none

/-- `WRREG <reg>, <value>`. -/
def parseWrreg : List (List Char) → Option Asm
  | [a, b] => (parseRef a).bind (fun r => (parseLiteral b).map (.wrreg r))
  | _ => none

/-- `RDREG <reg>`. -/
def parseRdreg : List (List Char) → Option Asm
  | [a] => (parseRef a).map .rdreg
  | _ => none

/-- `CONFIG <sr>, <at>, <dt>, <sl>, <rt>`. -/
def parseConfig : List (List Char) → Option Asm
  | [a, b, c, d, e] =>
    (parseLiteral a).bind (fun sr => (parseLiteral b).bind (fun at' => (parseLiteral c).bind (fun dt =>
      (parseLiteral d).bind (fun sl => (parseLiteral e).map (.config sr at' dt sl)))))
  | _ => none

/-- The reader of each mnemonic's operands (R56, R57). -/
def mnemonics : List (List Char × (List (List Char) → Option Asm)) :=
  [("NOP".toList, parse0 .nop), ("TICK".toList, parse0 .tick), ("KEYON".toList, parse2 .keyon),
   ("RESTRIKE".toList, parse1 .restrike), ("KEYOFF".toList, parse0 .keyoff), ("WRREG".toList, parseWrreg),
   ("RDREG".toList, parseRdreg), ("CLEAR".toList, parse0 .clear), ("CONFIG".toList, parseConfig),
   ("LOADACC".toList, parse2 .loadacc), ("READACC".toList, parse0 .readacc), ("SETPAN".toList, parse1 .setpan),
   ("FRAME".toList, parse2 .frame)]

/-- A source line without its comment, which runs from `;` to the end of the line (R56). -/
def stripComment (t : List Char) : List Char := t.takeWhile (fun c => c ≠ ';')

/-- The commands of one line of text: none where the assembler refuses it, no command for an empty line (R56). -/
def assembleLine (t : List Char) : Option (List Instr) :=
  let body := trim (stripComment t)
  if body.isEmpty then some []
  else
    match mnemonics.lookup (body.takeWhile (fun c => !isBlank c)) with
    | none => none
    | some read => (read (operandsOf (body.dropWhile (fun c => !isBlank c)))).bind assemble

/-- The commands of a list of lines. -/
def assembleLines : List (List Char) → Option (List Instr)
  | [] => some []
  | t :: rest => (assembleLine t).bind (fun is => (assembleLines rest).map (fun js => is ++ js))

/-- The commands of a source text, one source command per line (R56). -/
def assembleText (t : List Char) : Option (List Instr) := assembleLines (splitAt '\n' t)

end Sys2Proof.Machine
end

