-- ==== Sys2Proof/Tests/Slice0.lean ====
section
/-! SUPPORT. Tests against the vectors of 95_test_vectors.md (a comment names the vector) and the rules' own examples, and a witness for
the hypotheses of each claim, at the ends of each range. -/

namespace Sys2Proof.Tests

open Sys2Proof Sys2Proof.Machine

/-! ### Well-formedness: each check of the assembler refuses an ill-formed line (R56) -/

theorem test_wf_note_width : Asm.wellFormed (.keyon (.decimal false 256 0) (.decimal false 1 0)) = false ∧
    Asm.wellFormed (.keyon (.decimal false 255 0) (.decimal false 1 0)) = true := by decide

theorem test_wf_note_sign : Asm.wellFormed (.keyon (.decimal true 1 0) (.decimal false 1 0)) = false := by decide

theorem test_wf_note_fraction : Asm.wellFormed (.keyon (.decimal false 15 1) (.decimal false 1 0)) = false := by decide

theorem test_wf_note_hex : Asm.wellFormed (.keyon (.hex 256) (.decimal false 1 0)) = false ∧
    Asm.wellFormed (.keyon (.hex 255) (.decimal false 1 0)) = true := by decide

theorem test_wf_note_pattern : Asm.wellFormed (.keyon (.pattern 69) (.decimal false 1 0)) = false := by decide

theorem test_wf_gain : Asm.wellFormed (.keyon (.decimal false 69 0) (.hex 1)) = false ∧
    Asm.wellFormed (.restrike (.hex 1)) = false ∧ Asm.wellFormed (.restrike (.pattern 0x100000000)) = false ∧
    Asm.wellFormed (.restrike (.pattern 0xFFFFFFFF)) = true := by decide

theorem test_wf_address : Asm.wellFormed (.wrreg (.address 256) (.pattern 0)) = false ∧
    Asm.wellFormed (.rdreg (.address 256)) = false ∧ Asm.wellFormed (.rdreg (.address 255)) = true := by decide

theorem test_wf_value : Asm.wellFormed (.wrreg (.named .sampleRate) (.decimal false 0x100000000 0)) = false ∧
    Asm.wellFormed (.wrreg (.address 0x10) (.pattern 4)) = false ∧ Asm.wellFormed (.wrreg (.named .pan) (.hex 1)) = false ∧
    Asm.wellFormed (.wrreg (.named .sampleRate) (.decimal false 0xFFFFFFFF 0)) = true := by decide

theorem test_wf_config : Asm.wellFormed (.config (.pattern 4) (.pattern 0) (.pattern 0) (.pattern 0) (.pattern 0)) = false ∧
    Asm.wellFormed (.config (.hex 4) (.hex 0) (.pattern 0) (.pattern 0) (.pattern 0)) = false ∧
    Asm.wellFormed (.config (.hex 4) (.pattern 0) (.hex 0) (.pattern 0) (.pattern 0)) = false ∧
    Asm.wellFormed (.config (.hex 4) (.pattern 0) (.pattern 0) (.hex 0) (.pattern 0)) = false ∧
    Asm.wellFormed (.config (.hex 4) (.pattern 0) (.pattern 0) (.pattern 0) (.hex 0)) = false := by decide

theorem test_wf_pseudo : Asm.wellFormed (.loadacc (.hex 0) (.pattern 0)) = false ∧
    Asm.wellFormed (.loadacc (.pattern 0) (.hex 0)) = false ∧ Asm.wellFormed (.setpan (.hex 0)) = false ∧
    Asm.wellFormed (.frame (.hex 0) (.pattern 0)) = false ∧ Asm.wellFormed (.frame (.pattern 0) (.hex 0)) = false := by decide

theorem test_wf_instr : Instr.wellFormed (.keyon 255 0xFFFFFFFF) = true := by decide

/-! ### Decoding: words written out from R51 and R53, one for each command, and the illegal words of section 9 -/

/-- OPC 00000000, A 0, RSV 0, D 0. -/
theorem test_decode_nop : decode 0x0000000000000000 = .legal .nop := by decide

/-- OPC 00000001. -/
theorem test_decode_tick : decode 0x0100000000000000 = .legal .tick := by decide

/-- E13: OPC 00000010, A = 255, D = bits(1.0). -/
theorem test_decode_keyon : decode 0x02FF00003F800000 = .legal (.keyon 255 0x3F800000) := by decide

/-- C7: OPC 00000011, D = bits(0.25). -/
theorem test_decode_restrike : decode 0x030000003E800000 = .legal (.restrike 0x3E800000) := by decide

/-- C10: OPC 00000100. -/
theorem test_decode_keyoff : decode 0x0400000000000000 = .legal .keyoff := by decide

/-- W4: OPC 00000101, A = 0x04, D = bits(0.3). -/
theorem test_decode_wrreg : decode 0x050400003E99999A = .legal (.wrreg 0x04 0x3E99999A) := by decide

/-- E11: OPC 00000110, A = 0xAB. -/
theorem test_decode_rdreg : decode 0x06AB000000000000 = .legal (.rdreg 0xAB) := by decide

/-- S9: OPC 00000111. -/
theorem test_decode_clear : decode 0x0700000000000000 = .legal .clear := by decide

/-- E1 to E10. -/
theorem test_decode_illegal :
    [(0x0800000000000000 : Cmd), 0xFFFFFFFFFFFFFFFF, 0x0800000100000000].map decode = List.replicate 3 (.illegal .opcode) ∧
    [(0x0000000100000000 : Cmd), 0x0200800000000000, 0x0500000100000000, 0x0001000000000000, 0x0100000000000001,
      0x0600000000000001, 0x0701000000000000].map decode = List.replicate 7 (.illegal .reserved) := by decide

/-- The host's numbering of a row's bits is that of the word; a row shorter than the word has zeros above. -/
theorem test_decode_table_word : decodeTableWord 64 0x024500003F800000 = some (.keyon 69 0x3F800000) ∧
    decodeTableWord 64 0x0600000000000001 = none := by decide

/-! ### The assembler: the encodings printed beside the programs of section 11 -/

/-- P1: CONFIG, FRAME; W4's decimal literal 0.3; W12's hex address. -/
theorem test_assemble :
    (assembleText "CONFIG 4, 1.0, 1.0, 0.5, 1.0 ; P1\nKEYON 69, 1.0".toList).map (fun is => is.map encode) =
      some [0x0510000000000004, 0x051100003F800000, 0x051200003F800000, 0x051300003F000000, 0x051400003F800000,
        0x024500003F800000] ∧
    (assembleText "FRAME 0.0, 0.0".toList).map (fun is => is.map encode) =
      some [0x0508000000000000, 0x0509000000000000, 0x0100000000000000, 0x0608000000000000, 0x0609000000000000] ∧
    (assembleText "WRREG PAN, 0.3\nWRREG FF, 0.5\nWRREG PAN, -0.5".toList).map (fun is => is.map encode) =
      some [0x050400003E99999A, 0x05FF00003F000000, 0x05040000BF000000] ∧
    assembleText "KEYON 256, 1.0".toList = none := by decide +kernel

/-! ### One step of each command -/

/-- The common configuration of section 0. -/
def common : State :=
  { State.reset with
    sampleRate := 4, attackTime := 0x3F800000, decayTime := 0x3F800000, sustainLevel := 0x3F000000, releaseTime := 0x3F800000,
    peakGain := 0x3F800000 }

/-- The state after KEYON 69, 1.0 in the common configuration. -/
def keyed : State := common.executes 0x024500003F800000

/-- C1, E12. -/
theorem test_nop : (State.reset.executes 0x0000000000000000).statusWord = 0x40 ∧
    (State.reset.executes 0x0000000000000000).errinfoWord = 0 := by decide

/-- T2, T3: the first TICK after KEYON, and a loaded sum that passes through it. -/
theorem test_tick_first :
    let t := keyed.executes 0x0100000000000000
    let u := ((keyed.executes 0x050800003F800000).executes 0x05090000BF000000).executes 0x0100000000000000
    keyed.statusWord = 0x60 ∧ t.statusWord = 0x25 ∧ t.position = 0 ∧ t.envOut = 0 ∧ t.accL = 0 ∧ t.accR = 0 ∧
      t.phase = 0x40C90FC1 ∧ u.accL = 0x3F800000 ∧ u.accR = 0xBF000000 := by decide +kernel

/-- The rates of the common configuration, for any EPSILON of at most 1.0 (section 0). -/
theorem common_rates (h : F32.ge 0x3F800000 EPSILON = true) :
    common.attackRate = 0x3F800000 ∧ common.decayRate = 0x3F000000 ∧ common.releaseRate = 0x3F000000 := by
  have e : F32.max 0x3F800000 EPSILON = 0x3F800000 := if_pos h
  have ea : F32.max common.attackTime EPSILON = 0x3F800000 := e
  have ed : F32.max common.decayTime EPSILON = 0x3F800000 := e
  have er : F32.max common.releaseTime EPSILON = 0x3F800000 := e
  unfold State.attackRate State.decayRate State.releaseRate
  rw [ea, ed, er]
  decide +kernel

/-- A1, A2, A3, A4, A13, A14, A17, A18, A21, A22, A24: the envelope of TICK. -/
theorem test_tick_envelope (h : F32.ge 0x3F800000 EPSILON = true) :
    adsrStep common .silence 0 .low = (.silence, 0) ∧
    adsrStep common .silence 0 .risingEdge = (.attack, 0) ∧
    adsrStep common .attack 0 .high = (.attack, 0x3E800000) ∧
    adsrStep common .attack 0x3F400000 .high = (.decay, 0x3F800000) ∧
    adsrStep common .decay 0x3F600000 .risingEdge = (.attack, 0x3F400000) ∧
    adsrStep common .decay 0x3F600000 .fallingEdge = (.decay, 0x3F400000) ∧
    adsrStep common .sustain 0x3F000000 .high = (.sustain, 0x3F000000) ∧
    adsrStep common .sustain 0x3F000000 .fallingEdge = (.release, 0x3F000000) ∧
    adsrStep common .release 0x3F000000 .low = (.release, 0x3EC00000) ∧
    adsrStep common .release 0x3E000000 .low = (.silence, 0) ∧
    adsrStep common .release 0x3D800000 .risingEdge = (.attack, 0xBD800000) := by
  obtain ⟨ha, hd, hr⟩ := common_rates h
  simp only [adsrStep, attackStep, decayStep, releaseStep, ha, hd, hr]
  decide +kernel

/-- C2, C4. -/
theorem test_keyon :
    let t := State.reset.executes 0x024500003F800000
    t.statusWord = 0x60 ∧ t.noteWord = 69 ∧ t.peakGain = 0x3F800000 ∧ t.phase = 0 ∧
      (State.reset.executes 0x0245000080000000).peakGain = 0 := by decide

/-- C3, C5. -/
theorem test_keyon_refused :
    let t := State.reset.executes 0x024500007FC00000
    let u := (State.reset.executes 0x02050000BF800000).executes 0x020500007F800000
    t.statusWord = 0x140 ∧ t.errinfoWord = 0x00450205 ∧ t.active = false ∧ u.errinfoWord = 0x00050205 ∧ u.statusWord = 0x140 := by
  decide

/-- C7. -/
theorem test_restrike :
    let t := (State.reset.executes 0x024500003F800000).executes 0x030000003E800000
    t.peakGain = 0x3E800000 ∧ t.statusWord = 0x60 ∧ t.noteWord = 69 := by decide

/-- C8, C9. -/
theorem test_restrike_refused :
    let t := State.reset.executes 0x0301000000000000
    let u := State.reset.executes 0x030000007FC00001
    t.statusWord = 0xC0 ∧ t.errinfoWord = 0x00010302 ∧ u.statusWord = 0x140 ∧ u.errinfoWord = 0x00000305 ∧ u.active = false := by
  decide

/-- C10, C11. -/
theorem test_keyoff :
    let t := (State.reset.executes 0x024500003F800000).executes 0x0400000000000000
    let u := State.reset.executes 0x0400000000000001
    t.active = false ∧ t.statusWord = 0x40 ∧ u.errinfoWord = 0x00000402 ∧ u.statusWord = 0xC0 := by decide

/-- W1, W2, W3, W4, W7, W16, W17. -/
theorem test_wrreg :
    (State.reset.executes 0x050400003FC00000).pan = 0x3F800000 ∧ (State.reset.executes 0x05040000BF000000).pan = 0 ∧
    (State.reset.executes 0x0504000080000000).pan = 0 ∧ (State.reset.executes 0x050400003E99999A).pan = 0x3E99999A ∧
    (State.reset.executes 0x0513000080000000).sustainLevel = 0 ∧
    (State.reset.executes 0x05110000BF800000).attackTime = 0xBF800000 ∧
    (State.reset.executes 0x0508000080000000).accL = 0x80000000 := by decide

/-- W5, W6, W8, W9, W11, W14, W15, W18. -/
theorem test_wrreg_errors :
    [(0x050400007FC00000 : Cmd), 0x051300003FC00000, 0x0500000000000000, 0x050500003F000000, 0x050A000000000000,
      0x0502000000000100, 0x0510000000000000, 0x050900007F800000].map (fun w => (State.reset.executes w).errinfoWord) =
    [0x00040505, 0x00130505, 0x00000504, 0x00050504, 0x000A0503, 0x00020505, 0x00100505, 0x00090505] := by decide

/-- W19: derived registers, for NOTE 69 at SAMPLE_RATE 4. -/
theorem test_rdreg_derived :
    ((((keyed.executes 0x0600000000000000).executes 0x0618000000000000).executes 0x061C000000000000).executes
      0x061D000000000000).responses = [0x60, 0x3E800000, 0x43DC0000, 0x442CC9A0] := by decide +kernel

/-- W13: an unmapped read still responds 0. -/
theorem test_rdreg_unmapped :
    ((State.reset.executes 0x060A000000000000).executes 0x0601000000000000).responses = [0, 0x000A0603] := by decide

/-- C12, and P2's last lines: CLEAR keeps the configuration and clears the voice and the error. -/
theorem test_clear :
    let t := ((keyed.executes 0x050400003E800000).executes 0x0500000000000000).executes 0x0700000000000000
    t.statusWord = 0x40 ∧ t.errinfoWord = 0 ∧ t.pan = 0x3F000000 ∧ t.sampleRate = 4 ∧ t.noteWord = 0 := by decide

/-! ### Shared operations -/

/-- O1, O2, O5, O6, O7, O8. -/
theorem test_dt :
    [(44100 : Word), 48000, 67108864, 16777217, 4294967295, 3].map (fun r => (State.dt { State.reset with sampleRate := r })) =
    [0x37BE37C6, 0x37AEC33E, 0x32800000, 0x33800000, 0x2F800000, 0x3EAAAAAB] := by decide +kernel

/-- O18, O19, O20, O22, O23. -/
theorem test_phase :
    [((0x3E00634A : Word), (0x3D80634A : Word)), (0, 0x442CC9A0), (0x40C90FC1, 0x442CC9A0), (0, 0x452CC9A0),
      (0x40C90F73, 0x452CC9A0)].map (fun p => F32.fmod 0 (F32.add 0 p.1 p.2) TWO_PI) =
    [0x3E4094EF, 0x40C90FC1, 0x36B00000, 0x40C90F73, 0x40C90F98] := by decide +kernel

/-- M2, M4, M6, M7. -/
theorem test_pan_gains :
    [(0x3E800000 : Word), 0x3F800000, 0x3E4CCCCC, 0x3F170EAB].map
      (fun p => (gainLeft { State.reset with pan := p }, gainRight { State.reset with pan := p })) =
    [(0x3F000000, 0x3F5DB3D7), (0x3F800000, 0), (0x3EE4F92E, 0x3F64F92E), (0x3F44A60A, 0x3F23E80F)] := by decide +kernel

/-- M8, M9, M10, M13. -/
theorem test_mixer :
    [((0 : Word), (0x3F000000 : Word), (0x3E800000 : Word)), (0x80000000, 0, 0x3F000000), (0x80000000, 0x80000000, 0x3F000000),
      (0x3F400000, 0xBF000000, 0x3E800000)].map (fun p =>
      let s := { State.reset with accL := p.1, accR := p.1, pan := p.2.2 }
      (accumulateLeft s p.2.1, accumulateRight s p.2.1)) =
    [(0x3E800000, 0x3EDDB3D7), (0, 0), (0x80000000, 0x80000000), (0x3F000000, 0x3EA24C29)] := by decide +kernel

/-- S10: the first two pans from PAN_SEED0 = 0, and the seed between them. -/
theorem test_pan_seed : panFromSeed 0 = 0x3E4CCCCC ∧ nextSeed 0 = 0x3F266DC8 ∧ panFromSeed 0x3F266DC8 = 0x3F170EAB := by
  decide +kernel

/-! ### Witnesses of the claims' hypotheses -/

theorem witness_DecodeOfEncode : Instr.wellFormed (.wrreg 0xFF 0xFFFFFFFF) = true := by decide

theorem witness_LegalWordsAreTheRowsOfTheOpcodeMap :
    decode 0x02FF0000FFFFFFFF = .legal (.keyon 0xFF 0xFFFFFFFF) ∧
    (0x02FF0000FFFFFFFF : Cmd) &&& maskOf (.keyon 0xFF 0xFFFFFFFF) = matchOf (.keyon 0xFF 0xFFFFFFFF) := by decide

theorem witness_IllegalWordsAndTheirCauses :
    decode 0x0800000000000000 = .illegal .opcode ∧ decode 0xFF00000000000000 = .illegal .opcode ∧
    decode 0x0700000100000000 = .illegal .reserved ∧ decode 0x02FF8000FFFFFFFF = .illegal .reserved ∧
    decode 0x0301000000000000 = .illegal .reserved ∧ decode 0x0600000080000000 = .illegal .reserved := by decide

theorem witness_StepExecutesTheDecodedCommand :
    (State.reset.present 0x0100000000000000).inputs = .command 0x0100000000000000 :: [] ∧
    decode 0x0100000000000000 = .legal .tick := by decide

theorem witness_IllegalWordChangesOnlyTheErrorState :
    (State.reset.present 0x0800000000000000).inputs = .command 0x0800000000000000 :: [] ∧
    decode 0x0800000000000000 = .illegal .opcode := by decide

theorem witness_TheBlockNeverStops : State.reset.inputs = [] := rfl

theorem witness_ResetInputRestoresEveryRegister : (State.inputs { keyed with inputs := [.reset] }) = .reset :: [] := rfl

/-- A state at which reset is asserted; and a state with both error bits set, and a step that is neither a CLEAR nor a reset. -/
theorem witness_ErrorsStayUntilClearOrReset :
    let s := ((State.reset.executes 0x0500000000000000).executes 0x024500007FC00000).present 0x0000000000000000
    State.inputs { s with inputs := [.reset] } = .reset :: [] ∧
    (∃ t, step s = .next t) ∧ s.inputs = .command 0x0000000000000000 :: [] ∧ decode 0x0000000000000000 ≠ .legal .clear ∧
      s.errIllegal = true ∧ s.errValue = true := by
  refine ⟨rfl, ⟨_, rfl⟩, ?_⟩
  decide

/-- The ends of the accepted gains: +0, −0 and the largest finite value; and the refused ones next to them. -/
theorem witness_KeyonAllocatesTheVoice :
    [(0 : Word), 0x80000000, 0x7F7FFFFF].all (fun g => F32.isFinite g && F32.ge g 0) = true := by decide

theorem witness_RestrikeInPlace : F32.isFinite 0x80000000 = true ∧ F32.ge 0x80000000 0 = true := by decide

theorem witness_GainOperandCheck :
    F32.isFinite 0x7F800000 = false ∧ F32.isFinite 0xFFFFFFFF = false ∧ F32.ge 0x80000001 0 = false ∧
    F32.isFinite 0x80000000 = true ∧ F32.ge 0x80000000 0 = true ∧ F32.isFinite 0x00000001 = true ∧ F32.ge 0x00000001 0 = true := by
  decide

theorem witness_RegisterMap :
    [(0x0A : Byte), 0x0F, 0x15, 0x17, 0x1E, 0xFF].map regOfAddr = List.replicate 6 none ∧
    [(0x09 : Byte), 0x10, 0x14, 0x18, 0x1D].map regOfAddr =
      [some .accR, some .sampleRate, some .releaseTime, some .dt, some .phaseInc] := by decide

theorem witness_UnmappedAddress : regOfAddr 0x0A = none ∧ regOfAddr 0xFF = none := by decide

theorem witness_ReadOnlyRegistersRefuseWrites :
    Reg.phaseInc ∈ [Reg.status, Reg.errinfo, Reg.position, Reg.phase, Reg.envOut, Reg.dt, Reg.attackRate, Reg.decayRate,
      Reg.releaseRate, Reg.freq, Reg.phaseInc] := by decide

/-- One WRREG for each test that can fail, and one that passes them all. -/
theorem witness_WrregTestsInOrder :
    regOfAddr 0x0A = none ∧ regOfAddr 0x1D = some .phaseInc ∧ regReadOnly .phaseInc = true ∧ regOfAddr 0x10 = some .sampleRate ∧
    regReadOnly .sampleRate = false ∧ regAccepts .sampleRate 0 = false ∧ regAccepts .sampleRate 1 = true := by decide

/-- An accepted value of each kind at the ends of its domain. -/
theorem witness_WrregDomainsAndStoredValues :
    (0x000000FF : Word).extractLsb' 8 24 = 0 ∧ F32.isFinite 0xFF7FFFFF = true ∧ F32.isFinite 0x7F7FFFFF = true ∧
    F32.ge 0x80000000 0 = true ∧ (0xFFFFFFFF : Word) ≠ 0 ∧ (1 : Word) ≠ 0 ∧
    F32.ge 0 0 = true ∧ F32.le 0 0x3F800000 = true ∧ F32.ge 0x3F800000 0 = true ∧ F32.le 0x3F800000 0x3F800000 = true := by decide

/-- A refused value of each kind next to its domain. -/
theorem witness_WrregDomainsAndStoredValues_refused :
    (0x00000100 : Word).extractLsb' 8 24 ≠ 0 ∧ F32.isFinite 0x7F800000 = false ∧ F32.isFinite 0xFF800000 = false ∧
    F32.ge 0x80000001 0 = false ∧ F32.le 0x3F800001 0x3F800000 = false := by decide

/-- Each clause at its end: −0 and the least negative value, 1.0, and the least and greatest values strictly between. -/
theorem witness_PanWritesAreClamped :
    F32.isFinite 0xFF7FFFFF = true ∧ F32.le 0x80000000 0 = true ∧ F32.le 0xFF7FFFFF 0 = true ∧
    F32.ge 0x3F800000 0x3F800000 = true ∧ F32.ge 0x7F7FFFFF 0x3F800000 = true ∧
    F32.lt 0 0x00000001 = true ∧ F32.lt 0x00000001 0x3F800000 = true ∧ F32.lt 0 0x3F7FFFFF = true ∧
    F32.lt 0x3F7FFFFF 0x3F800000 = true := by decide

theorem witness_WritesAreIdempotent :
    (∃ t, exec (.wrreg 0x04 0x3FC00000) State.reset = .next t) ∧ (∃ t, exec (.wrreg 0x0A 0) State.reset = .next t) :=
  ⟨⟨_, rfl⟩, ⟨_, rfl⟩⟩

theorem witness_RdregRespondsWithTheRegister : regOfAddr 0x0F = none ∧ addrOfReg .phaseInc = 0x1D := by decide

theorem witness_GateReportsEachEdgeOnce : F32.isFinite 0x3F800000 = true ∧ F32.ge 0x3F800000 0 = true := by decide

/-- A take with two responses to take. -/
theorem witness_OnlyRdregResponds_take :
    let s : State := { State.reset with inputs := [.take], responses := [1, 2] }
    s.inputs = .take :: [] ∧ s.responses = 1 :: [2] := by decide

theorem witness_OnlyRdregResponds :
    (State.reset.present 0x060A000000000000).inputs = .command 0x060A000000000000 :: [] ∧
    (∃ t, step (State.reset.present 0x060A000000000000) = .next t) ∧ decode 0x060A000000000000 = .legal (.rdreg 0x0A) ∧
    (∃ t, step (State.reset.present 0x0600000000000001) = .next t) ∧ decode 0x0600000000000001 = .illegal .reserved :=
  ⟨rfl, ⟨_, rfl⟩, by decide, ⟨_, rfl⟩, by decide⟩

theorem witness_OnlyARisingEdgeDivertsTheEnvelope :
    Env.release ≠ .silence ∧ Env.release ≠ .attack ∧ Env.release ≠ .sustain := by decide

/-- Legal configurations with the sustain level at both ends of its domain. -/
theorem witness_RatesAreFiniteAndNotNegative :
    State.configLegal { common with sustainLevel := 0x3F800000 } = true ∧ State.configLegal { common with sustainLevel := 0 } = true ∧
    State.configLegal { common with sustainLevel := 0x80000000, attackTime := 0xFF7FFFFF } = true := by decide

/-- A TICK whose position after the step is no NaN and zero. -/
theorem witness_EnvelopeSampleIsTheSquare :
    let t := State.reset.executes 0x0100000000000000
    F32.isNaN t.position = false ∧ F32.isZero t.position = true := by decide +kernel

theorem witness_DtIsTheReciprocalOfTheSampleRate :
    State.sampleRate { State.reset with sampleRate := 1 } ≠ 0 ∧ State.sampleRate { State.reset with sampleRate := 0xFFFFFFFF } ≠ 0 := by
  decide

theorem witness_FrequencyLaw :
    [57, 60, 81, 69].map (fun n => State.note { State.reset with note := n }) = [57, 60, 81, 69] := by decide

theorem witness_PhaseIncrementIsNotNegative : common.sampleRate ≠ 0 := by decide

/-- Both ends of [0, TWO_PI). -/
theorem witness_OscillatorStaysInUnitRange : (0 : Word).toNat < 0x40C90FDB ∧ (0x40C90FDA : Word).toNat < 0x40C90FDB := by decide

/-- NOTE 69 in the common configuration, from both ends of the phase's range. -/
theorem witness_PhaseWrapsExactly :
    keyed.phase.toNat < 0x40C90FDB ∧ State.phase { keyed with phase := 0x40C90FDA } = 0x40C90FDA ∧ keyed.sampleRate ≠ 0 ∧
    F32.isFinite keyed.phaseInc = true := by decide +kernel

theorem witness_PanGainsAreInUnitRange :
    [(0 : Word), 0x3F800000, 0x3F000000, 0x80000000].all F32.inUnit = true := by decide

/-- A silent voice that is not held, with nonzero sums and with zero ones. -/
theorem witness_SilentVoiceLeavesTheSums :
    let s : State := { common with accL := 0x3F800000, accR := 0xFF7FFFFF, gate := .fallingEdge }
    s.env = .silence ∧ s.active = false ∧ lowish s.gate = true ∧ s.phase.toNat < 0x40C90FDB ∧ F32.inUnit s.pan = true ∧
    F32.isFinite s.accL = true ∧ F32.isZero s.accL = false ∧ F32.isFinite s.accR = true ∧ F32.isZero s.accR = false ∧
    F32.isFinite 0 = true ∧ F32.isZero 0 = true ∧ F32.isFinite 0x80000000 = true ∧ F32.isZero 0x80000000 = true := by decide

/-- A held voice fully left with a frame sample of +0, one sum −0 and the other infinite. -/
theorem witness_SilentVoiceLeavesTheSums_sample :
    let s : State := { keyed with pan := 0x3F800000, accL := 0x80000000, accR := 0xFF800000 }
    F32.mul (s.nan .sample) (osc s s.phase)
      (envelopeSample s (adsrStep s s.env s.position (gateNext s.gate s.active)).2) = 0 ∧
    s.pan.toNat ≤ 0x3F800000 ∧ F32.isNaN s.accL = false ∧ F32.isNaN s.accR = false := by decide +kernel

/-- Two states that agree on what the phase depends on and on nothing else. -/
theorem witness_PhaseIsIndependentOfTheEnvelope :
    let u : State := { keyed with env := .sustain, position := 0x3F000000, peakGain := 0, pan := 0, accL := 0x3F800000 }
    keyed.phase = u.phase ∧ keyed.note = u.note ∧ keyed.sampleRate = u.sampleRate ∧ keyed.drawNo = u.drawNo ∧ keyed ≠ u := by decide

/-- A word for each clause: WRREG is neither TICK, KEYON nor CLEAR; TICK writes neither ACTIVE nor a configuration register. -/
theorem witness_EachRegisterHasItsWriters :
    (∃ t, step (keyed.present 0x050400003E99999A) = .next t) ∧ decode 0x050400003E99999A = .legal (.wrreg 0x04 0x3E99999A) ∧
    (∃ t, step (keyed.present 0x0100000000000000) = .next t) ∧ decode 0x0100000000000000 = .legal .tick ∧
    (∃ t, step (keyed.present 0x0000000000000000) = .next t) ∧ decode 0x0000000000000000 = .legal .nop :=
  ⟨⟨_, rfl⟩, by decide, ⟨_, rfl⟩, by decide, ⟨_, rfl⟩, by decide⟩

/-- The largest finite value plus half its ulp is the least sum that overflows; one plus half an ulp is a tie and rounds to even. -/
theorem witness_AddIsRoundedToNearestEven :
    F32.isFinite 0x7F7FFFFF = true ∧ F32.isFinite 0x73000000 = true ∧ F32.isInf (F32.add 0 0x7F7FFFFF 0x73000000) = true ∧
    F32.isFinite (F32.add 0 0x7F7FFFFF 0x72FFFFFF) = true ∧ F32.add 0 0x3F800000 0x33800000 = 0x3F800000 ∧
    F32.add 0 0x3F800001 0x33800000 = 0x3F800002 := by decide +kernel

theorem witness_MulIsRoundedToNearestEven :
    F32.isFinite 0x7F7FFFFF = true ∧ F32.isFinite (F32.mul 0 0x7F7FFFFF 0x3F800000) = true ∧
    F32.isInf (F32.mul 0 0x7F7FFFFF 0xBF800001) = true ∧ F32.mul 0 0x00000001 0x3F000000 = 0 := by decide +kernel

theorem witness_DivIsRoundedToNearestEven :
    F32.isFinite 0x3F800000 = true ∧ F32.isZero 0x40400000 = false ∧ F32.isFinite (F32.div 0 0x3F800000 0x40400000) = true ∧
    F32.isInf (F32.div 0 0x7F7FFFFF 0x00000001) = true := by decide +kernel

theorem witness_SqrtIsRoundedToNearest :
    F32.isFinite 0x40000000 = true ∧ F32.signBit 0x40000000 = false ∧ F32.sqrt 0 0x40000000 = 0x3FB504F3 ∧
    F32.isFinite 0x00000001 = true ∧ F32.signBit 0x00000001 = false := by decide +kernel

theorem witness_FmodIsExact :
    F32.isFinite 0x7F7FFFFF = true ∧ F32.ge 0x7F7FFFFF 0 = true ∧ F32.ge 0x80000000 0 = true ∧ F32.isFinite 0x40C90FDB = true ∧
    F32.lt 0 0x40C90FDB = true ∧ F32.lt 0 0x00000001 = true := by decide

/-- Both ends of [−6, 16]. -/
theorem witness_ParameterProperties :
    F32.isFinite 0xC0C00000 = true ∧ F32.le 0xC0C00000 0xC0C00000 = true ∧ F32.isFinite 0x41800000 = true ∧
    F32.le 0x41800000 0x41800000 = true ∧ F32.le 0xC0C00000 0x41800000 = true := by decide

/-- A held voice in Silence at the TICK that reports its rising edge, and a released one. -/
theorem witness_EveryStepKeepsTheStateLegal :
    (keyed.present 0x0100000000000000).legal = true ∧ (∃ t, step (keyed.present 0x0100000000000000) = .next t) ∧
    State.legal { keyed with env := .release, gate := .fallingEdge, position := 0x3F000000 } = true :=
  ⟨by decide, ⟨_, rfl⟩, by decide⟩

theorem witness_EveryStepKeepsThePhaseWrapped :
    (keyed.present 0x0100000000000000).phaseWrapped = true ∧ (keyed.present 0x0100000000000000).sampleRate ≠ 0 ∧
    F32.isFinite (keyed.present 0x0100000000000000).phaseInc = true ∧
    ∃ t, step (keyed.present 0x0100000000000000) = .next t :=
  ⟨by decide, by decide, by decide +kernel, ⟨_, rfl⟩⟩

/-- A system of two instances, the first holding NOTE 69 for a live voice. -/
def pair : System := ⟨[keyed, State.reset], ⟨[⟨0, 0⟩], [1], 0, false, [], 0⟩⟩

theorem witness_InstancesShareNothing : ∃ z, pair.issue 0 .tick = .ok z := ⟨_, rfl⟩

/-- H1, H3 at the ends of the velocities. -/
theorem witness_VelocityCurve : (127 : Int) ≤ 127 ∧ (0 : Int) ≤ 0 := by decide

theorem witness_NotesAreRestruckInPlace : pair.findVoice 69 = some ⟨0, 0⟩ ∧ pair.findVoice 61 = none := by decide

/-- The second live voice is found where it alone holds the note, and the first where both do. -/
theorem witness_NotesAreRestruckInPlace_first :
    let y : System := { pair with host := { pair.host with live := [⟨1, 4⟩, ⟨0, 3⟩] } }
    y.findVoice 69 = some ⟨0, 3⟩ ∧ (System.findVoice { y with insts := [keyed, keyed] } 69) = some ⟨1, 4⟩ := by decide

theorem witness_RenderingNoVoicesGivesSilence :
    let y : System := { pair with host := { pair.host with live := [] } }
    y.host.live = [] ∧ y.host.queue = [] ∧ y.host.uiOn = false := by decide

end Sys2Proof.Tests
end

section
/-! SCOPE. The named properties of the parameters (00_scope.md R6, R12). -/

namespace Sys2Proof.Machine

/-- SIN_FINITE (R12) as comparisons: the bound on the magnitude of `SIN x` gives its finiteness and both ends of its range. -/
theorem SIN_finite_within_one {x : Word} (hx : F32.isFinite x = true) :
    F32.isFinite (SIN x) = true ∧ F32.le 0xBF800000 (SIN x) = true ∧ F32.le (SIN x) 0x3F800000 = true := by
  have hmag : F32.mag (SIN x) ≤ 0x3F800000 := mag_SIN_le hx
  have hone : 0x3F800000 < F32.infMag := by decide
  exact ⟨F32.isFinite_iff.2 (hmag.trans_lt hone), F32.within_one_iff.2 hmag⟩

/-- Settles O53: each part is the limit `Machine/Params.lean` puts on that parameter. -/
theorem parameterProperties : Obligations.ParameterProperties :=
  ⟨SIN_zero, fun _ hx => SIN_finite_within_one hx, EXP2_zero, fun _ _ hlo hhi => EXP2_finite hlo hhi, EPSILON_normal⟩

end Sys2Proof.Machine
end

section
/-! STATE. The error record over a step (R22, R106), the reset values (R36), and the fields of the STATUS and ERRINFO words (R18,
R23). -/

namespace Sys2Proof.Machine

/-! ### Errors stay until CLEAR or reset -/

/-- An error is recorded exactly when one of the sticky bits is set. -/
theorem State.noError_eq_false_iff {s : State} : s.noError = false ↔ s.errIllegal = true ∨ s.errValue = true := by
  rw [Bool.eq_false_iff, ne_eq, State.noError_iff, not_and_or, Bool.not_eq_false, Bool.not_eq_false]

/-- What R22 asks of a step from `s` to `t` that is neither a CLEAR nor a reset: a set sticky bit stays set, and a recorded error is
not overwritten. -/
structure KeepsErrors (s t : State) : Prop where
  errIllegal : s.errIllegal = true → t.errIllegal = true
  errValue : s.errValue = true → t.errValue = true
  errinfo : s.noError = false → t.errinfo = s.errinfo

namespace KeepsErrors

/-- An update that does not touch the error state keeps every error. -/
theorem of_eq {s t : State} (hi : t.errIllegal = s.errIllegal) (hv : t.errValue = s.errValue) (he : t.errinfo = s.errinfo) :
    KeepsErrors s t :=
  ⟨hi.trans, hv.trans, fun _ => he⟩

/-- Raising a further error keeps every error: the bits only accumulate, and ERRINFO is that of the first (R106). -/
theorem raiseError (s : State) (c : Cause) (w : Cmd) : KeepsErrors s (s.raiseError c w) where
  errIllegal h := by rw [State.raiseError_errIllegal, h, Bool.true_or]
  errValue h := by rw [State.raiseError_errValue, h, Bool.true_or]
  errinfo h := State.raiseError_errinfo_of_error _ _ _ h

/-- Keeping every error composes: an error recorded before the first update is still recorded after it. -/
theorem trans {s t u : State} (hst : KeepsErrors s t) (htu : KeepsErrors t u) : KeepsErrors s u where
  errIllegal h := htu.errIllegal (hst.errIllegal h)
  errValue h := htu.errValue (hst.errValue h)
  errinfo h := by
    have ht : t.noError = false :=
      State.noError_eq_false_iff.2 ((State.noError_eq_false_iff.1 h).imp hst.errIllegal hst.errValue)
    exact (htu.errinfo ht).trans (hst.errinfo h)

end KeepsErrors

/-- Of the commands only CLEAR can lose an error: each of the others raises one, or does not touch the error state. -/
theorem keepsErrors_exec {i : Instr} {s t : State} (hi : i ≠ .clear) (h : exec i s = .next t) : KeepsErrors s t := by
  cases i with
  | clear => exact absurd rfl hi
  | nop => cases h; exact .of_eq rfl rfl rfl
  | tick => cases h; exact .of_eq rfl rfl rfl
  | keyoff => cases h; exact .of_eq rfl rfl rfl
  | keyon n g =>
    change execKeyon n g s = .next t at h
    cases hg : gainAccepted g with
    | false => rw [execKeyon_refused hg] at h; cases h; exact .raiseError _ _ _
    | true => rw [execKeyon_accepted hg] at h; cases h; exact .of_eq rfl rfl rfl
  | restrike g =>
    change execRestrike g s = .next t at h
    cases hg : gainAccepted g with
    | false => rw [execRestrike_refused hg] at h; cases h; exact .raiseError _ _ _
    | true => rw [execRestrike_accepted hg] at h; cases h; exact .of_eq rfl rfl rfl
  | wrreg a v =>
    obtain ⟨c, -, -, -, rfl⟩ | ⟨r, -, -, -, rfl⟩ := execWrreg_cases h
    · exact .raiseError _ _ _
    · exact .of_eq (State.writeReg_errIllegal _ _ _) (State.writeReg_errValue _ _ _) (State.writeReg_errinfo _ _ _)
  | rdreg a =>
    change execRdreg a s = .next t at h
    cases hm : regOfAddr a with
    | none => rw [execRdreg_unmapped hm] at h; cases h; exact (KeepsErrors.raiseError _ _ _).trans (.of_eq rfl rfl rfl)
    | some r => rw [execRdreg_mapped hm] at h; cases h; exact .of_eq rfl rfl rfl

/-- A step keeps every error unless the block takes up a reset or a CLEAR. Taking up an input does not touch the error state,
so what counts is what the command does after it. -/
theorem keepsErrors_step {s t : State} (h : step s = .next t) (hReset : ∀ rest, s.inputs ≠ .reset :: rest)
    (hClear : ∀ w rest, s.inputs = .command w :: rest → decode w ≠ .legal .clear) : KeepsErrors s t := by
  have begin_keeps (rest : List Input) : KeepsErrors s (s.beginInput rest) := .of_eq rfl rfl rfl
  obtain ⟨-, rfl⟩ | ⟨w, rest, i, hin, hd, hx⟩ | ⟨w, rest, c, -, -, rfl⟩ | ⟨rest, hin, -⟩ | ⟨rest, -, rfl⟩ := step_cases h
  · exact .of_eq rfl rfl rfl
  · have hi : i ≠ .clear := fun e => hClear w rest hin (e ▸ hd)
    exact (begin_keeps rest).trans (keepsErrors_exec hi hx)
  · exact (begin_keeps rest).trans (.raiseError _ _ _)
  · exact absurd hin (hReset rest)
  · exact .of_eq rfl rfl rfl

/-- Settles O12: raising sets a bit (`raiseError_noError`), CLEAR and reset write the error state, and every other step keeps it
(`keepsErrors_step`). -/
theorem errorsStayUntilClearOrReset : Obligations.ErrorsStayUntilClearOrReset := by
  refine ⟨fun s c w => State.noError_eq_false_iff.1 (State.raiseError_noError s c w), fun s => ⟨_, rfl, rfl, rfl⟩,
    fun s rest h => ⟨_, step_reset h, rfl, rfl⟩, fun s t h hReset hClear => ?_⟩
  obtain ⟨hIllegal, hValue, hInfo⟩ := keepsErrors_step h hReset hClear
  exact ⟨hIllegal, hValue, fun he => hInfo (State.noError_eq_false_iff.2 he)⟩

/-! ### The reset values -/

/-- Settles O9: the fields are those of `State.reset`, and each OPEN parameter meets the limit `Machine/Params.lean` puts on it. -/
theorem resetValues : Obligations.ResetValues :=
  ⟨rfl, rfl, rfl, rfl, rfl, rfl, rfl, rfl, rfl, rfl, rfl, rfl, rfl, rfl, rfl, rfl, rfl, rfl, rfl, rfl,
    RESET_SAMPLE_RATE_ne_zero, finiteParam_finite _, finiteParam_finite _, finiteParam_finite _, RESET_SUSTAIN_LEVEL_inUnit⟩

/-! ### The STATUS and ERRINFO words -/

namespace State

variable (s : State)

/-! A field of a word is reached by dropping the fields appended below it, one `extractLsb'_append_eq_of_le` for each. -/

theorem statusWord_gate : s.statusWord.extractLsb' 0 2 = s.gate.code := BitVec.extractLsb'_append_eq_right

theorem statusWord_env : s.statusWord.extractLsb' 2 3 = s.env.code := by
  rw [statusWord, BitVec.extractLsb'_append_eq_of_le (by decide)]
  exact BitVec.extractLsb'_append_eq_right

/-- The four one-bit fields of STATUS. -/
theorem statusWord_flags :
    s.statusWord.getLsbD 5 = s.active ∧ s.statusWord.getLsbD 6 = s.inSilence ∧
    s.statusWord.getLsbD 7 = s.errIllegal ∧ s.statusWord.getLsbD 8 = s.errValue := by
  simp only [statusWord, BitVec.getLsbD_append]
  simp

theorem statusWord_upper : s.statusWord.extractLsb' 9 23 = 0 := by
  rw [statusWord]
  iterate 6 rw [BitVec.extractLsb'_append_eq_of_le (by decide)]
  exact BitVec.extractLsb'_eq_self

theorem errinfoWord_cause : s.errinfoWord.extractLsb' 0 4 = causeCode s.errinfo.cause := BitVec.extractLsb'_append_eq_right

theorem errinfoWord_gap : s.errinfoWord.extractLsb' 4 4 = 0 := by
  rw [errinfoWord, BitVec.extractLsb'_append_eq_of_le (by decide)]
  exact BitVec.extractLsb'_append_eq_right

theorem errinfoWord_opc : s.errinfoWord.extractLsb' 8 8 = s.errinfo.opc := by
  rw [errinfoWord]
  iterate 2 rw [BitVec.extractLsb'_append_eq_of_le (by decide)]
  exact BitVec.extractLsb'_append_eq_right

theorem errinfoWord_a : s.errinfoWord.extractLsb' 16 8 = s.errinfo.a := by
  rw [errinfoWord]
  iterate 3 rw [BitVec.extractLsb'_append_eq_of_le (by decide)]
  exact BitVec.extractLsb'_append_eq_right

theorem errinfoWord_upper : s.errinfoWord.extractLsb' 24 8 = 0 := by
  rw [errinfoWord]
  iterate 4 rw [BitVec.extractLsb'_append_eq_of_le (by decide)]
  exact BitVec.extractLsb'_eq_self

end State

/-- Settles O26: each field is the one the word was assembled from, and the codes of its states are those of R19, R20 and R105. -/
theorem statusAndErrinfoWords : Obligations.StatusAndErrinfoWords := by
  intro s
  obtain ⟨hActive, hSilence, hIllegal, hValue⟩ := s.statusWord_flags
  refine ⟨⟨s.statusWord_gate.trans ?_, s.statusWord_env.trans ?_, hActive, hSilence, hIllegal, hValue, s.statusWord_upper⟩,
    s.errinfoWord_cause.trans ?_, s.errinfoWord_gap, s.errinfoWord_opc, s.errinfoWord_a, s.errinfoWord_upper⟩
  · cases s.gate <;> rfl
  · cases s.env <;> rfl
  · cases s.errinfo.cause <;> rfl

end Sys2Proof.Machine
end

section
/-! MEMORY. The register map: its addresses, its gaps and its read-only registers (20_memory.md R38). -/

namespace Sys2Proof.Machine

/-- An address that names a register is the single address of that register. With `regOfAddr_addrOfReg`, the mapped addresses
are exactly those of the registers. -/
theorem eq_addrOfReg_of_regOfAddr {a : Byte} {r : Reg} (h : regOfAddr a = some r) : a = addrOfReg r := by
  unfold regOfAddr at h
  split at h <;> cases h <;> exact BitVec.eq_of_toNat_eq ‹a.toNat = _›

/-- R38's gaps seen from the registers: no register's address falls in one. -/
theorem addrOfReg_toNat_mem_ranges (r : Reg) :
    (addrOfReg r).toNat ≤ 0x09 ∨ (0x10 ≤ (addrOfReg r).toNat ∧ (addrOfReg r).toNat ≤ 0x14) ∨
    (0x18 ≤ (addrOfReg r).toNat ∧ (addrOfReg r).toNat ≤ 0x1D) := by
  cases r <;> decide

/-- The unmapped ranges of R38: a register named there would have its single address in a gap. -/
theorem regOfAddr_eq_none_of_gap {a : Byte}
    (ha : (0x0A ≤ a.toNat ∧ a.toNat ≤ 0x0F) ∨ (0x15 ≤ a.toNat ∧ a.toNat ≤ 0x17) ∨ 0x1E ≤ a.toNat) : regOfAddr a = none := by
  refine Option.eq_none_iff_forall_not_mem.2 fun r hr => ?_
  have hRanges := addrOfReg_toNat_mem_ranges r
  rw [← eq_addrOfReg_of_regOfAddr hr] at hRanges
  omega

/-- The read-only registers are the eleven that R38 lists. -/
theorem regReadOnly_iff (r : Reg) : regReadOnly r = true ↔ r ∈ [Reg.status, Reg.errinfo, Reg.position, Reg.phase, Reg.envOut,
    Reg.dt, Reg.attackRate, Reg.decayRate, Reg.releaseRate, Reg.freq, Reg.phaseInc] := by
  cases r <;> decide

/-- Settles O18: the 21 mapped addresses evaluate, the gaps are `regOfAddr_eq_none_of_gap`, and the rest goes register by
register. -/
theorem registerMap : Obligations.RegisterMap :=
  ⟨rfl, fun _ => regOfAddr_eq_none_of_gap, fun r => ⟨regOfAddr_addrOfReg r, regReadOnly_iff r⟩⟩

end Sys2Proof.Machine
end

section
/-! ENCODING. The rows of the opcode map (30_encoding.md R53): a word read through a row's mask, field by field, and the word of a
command decoded. -/

namespace Sys2Proof

/-- A word with a zero RSV field is the pack of its other three (R51). -/
theorem eq_packC64 {w : Cmd} {opc a : Byte} {d : Word} (hopc : opcField w = opc) (ha : aField w = a) (hrsv : rsvField w = 0)
    (hd : dField w = d) : w = packC64 opc a d := by
  rw [← hopc, ← ha, ← hd, packC64_fields w hrsv]

/-! ### A mask acts on each field apart -/

theorem opcField_and (v w : Cmd) : opcField (v &&& w) = opcField v &&& opcField w := BitVec.extractLsb'_and

theorem aField_and (v w : Cmd) : aField (v &&& w) = aField v &&& aField w := BitVec.extractLsb'_and

theorem rsvField_and (v w : Cmd) : rsvField (v &&& w) = rsvField v &&& rsvField w := BitVec.extractLsb'_and

theorem dField_and (v w : Cmd) : dField (v &&& w) = dField v &&& dField w := BitVec.extractLsb'_and

/-! ### The fields of the masks and matches -/

/-- Every row fixes the whole of OPC. -/
theorem opcField_maskOf (i : Instr) : opcField (maskOf i) = BitVec.allOnes 8 := by
  cases i <;> simp only [maskOf] <;> decide

/-- Every row fixes the whole of RSV. -/
theorem rsvField_maskOf (i : Instr) : rsvField (maskOf i) = BitVec.allOnes 16 := by
  cases i <;> simp only [maskOf] <;> decide

/-- A row's match value is its opcode over zero fields. -/
theorem matchOf_eq_packC64 (i : Instr) : matchOf i = packC64 (opcodeOf i) 0 0 := by
  cases i <;> simp only [matchOf, opcodeOf] <;> decide

/-- A command with an A operand has a row that leaves A free. -/
theorem aOf_eq_zero_or_aField_maskOf (i : Instr) : aOf i = 0 ∨ aField (maskOf i) = 0 := by
  cases i with
  | nop | tick | restrike | keyoff | clear => exact .inl rfl
  | keyon | wrreg | rdreg => right; simp only [maskOf]; decide

/-- A command with a D operand has a row that leaves D free. -/
theorem dOf_eq_zero_or_dField_maskOf (i : Instr) : dOf i = 0 ∨ dField (maskOf i) = 0 := by
  cases i with
  | nop | tick | keyoff | rdreg | clear => exact .inl rfl
  | keyon | restrike | wrreg => right; simp only [maskOf]; decide

/-! ### A command's word and its row -/

/-- The word of a command matches the command's row. -/
theorem encode_and_maskOf (i : Instr) : encode i &&& maskOf i = matchOf i := by
  rw [matchOf_eq_packC64]
  apply eq_packC64
  · rw [opcField_and, opcField_encode, opcField_maskOf, BitVec.and_allOnes]
  · rw [aField_and, aField_encode]
    obtain h | h := aOf_eq_zero_or_aField_maskOf i <;> simp [h]
  · rw [rsvField_and, rsvField_encode, rsvField_maskOf, BitVec.and_allOnes]
  · rw [dField_and, dField_encode]
    obtain h | h := dOf_eq_zero_or_dField_maskOf i <;> simp [h]

/-- A word that matches a command's row and holds its operands is the command's word: the mask covers OPC and RSV, the operands are
the rest. -/
theorem eq_encode_of_row {w : Cmd} {i : Instr} (hrow : w &&& maskOf i = matchOf i) (ha : aField w = aOf i)
    (hd : dField w = dOf i) : w = encode i := by
  rw [matchOf_eq_packC64] at hrow
  have hopc : opcField w = opcodeOf i := by
    rw [← opcField_packC64 (opcodeOf i) 0 0, ← hrow, opcField_and, opcField_maskOf, BitVec.and_allOnes]
  have hrsv : rsvField w = 0 := by
    rw [← rsvField_packC64 (opcodeOf i) 0 0, ← hrow, rsvField_and, rsvField_maskOf, BitVec.and_allOnes]
  exact eq_packC64 hopc ha hrsv hd

/-- Decoding the word of a command passes both tests of R54 and reads the row from the fields. -/
theorem decode_encode (i : Instr) : decode (encode i) = .legal i := by
  have hopc : ¬ 8 ≤ (opcodeOf i).toNat := by cases i <;> simp [opcodeOf]
  have hfields : decodeFields (opcodeOf i) (aOf i) (dOf i) = .legal i := by cases i <;> rfl
  rw [decode, opcField_encode, rsvField_encode, aField_encode, dField_encode, if_neg hopc, if_neg (not_not_intro rfl), hfields]

/-- The words that decode to a command: the command's own word, and no other. -/
theorem decode_eq_legal_iff {w : Cmd} {i : Instr} : decode w = .legal i ↔ w = encode i :=
  ⟨fun h => (encode_of_decode h).symm, fun h => h ▸ decode_encode i⟩

/-- Settles O2: only the command's own word decodes to it (`decode_eq_legal_iff`); that word matches the row (`encode_and_maskOf`),
and the row with the operands leaves no other (`eq_encode_of_row`). -/
theorem legalWordsAreTheRowsOfTheOpcodeMap : Obligations.LegalWordsAreTheRowsOfTheOpcodeMap := by
  intro w i
  rw [decode_eq_legal_iff]
  constructor
  · rintro rfl
    exact ⟨encode_and_maskOf i, (aField_encode i).symm, (dField_encode i).symm⟩
  · rintro ⟨hrow, ha, hd⟩
    exact eq_encode_of_row hrow ha.symm hd.symm

end Sys2Proof
end

section
/-! CONTROL. The voice control commands (40_control.md R58 to R63): which gains KEYON and RESTRIKE accept, how an accepted gain is
stored, and what each command leaves unchanged. -/

namespace Sys2Proof.Machine

/-! ### The gain operand (R58) -/

/-- The model's gain check is R58's: finite and not below zero. -/
theorem gainAccepted_iff {g : Word} : gainAccepted g = true ↔ F32.isFinite g = true ∧ F32.ge g 0 = true := Bool.and_eq_true_iff

/-- The refused gains, one case for each half of R58's check. -/
theorem gainAccepted_eq_false_iff {g : Word} : gainAccepted g = false ↔ F32.isFinite g = false ∨ F32.ge g 0 = false :=
  Bool.and_eq_false_iff

namespace F32

theorem normz_negZero : normz 0x80000000 = 0 := if_pos rfl

theorem normz_of_ne_negZero {v : Word} (h : v ≠ 0x80000000) : normz v = v := if_neg h

/-- Of the values at or above zero only −0 has its sign bit set. -/
theorem signBit_eq_false_of_ge_zero {v : Word} (hge : ge v 0 = true) (hne : v ≠ 0x80000000) : signBit v = false := by
  obtain ⟨-, hs | hm⟩ := ge_zero_iff.1 hge
  · exact hs
  · refine Bool.eq_false_iff.2 fun hs => hne ?_
    rw [← pack_signBit_mag v, hs, hm]
    rfl

end F32

/-- An accepted gain is stored as the pattern of a finite value with a clear sign bit: −0 is stored as +0, and any other accepted
gain, its sign bit being clear, as itself. -/
theorem normz_toNat_lt_of_gainAccepted {g : Word} (h : gainAccepted g = true) : (F32.normz g).toNat < 0x7F800000 := by
  obtain ⟨hFinite, hge⟩ := gainAccepted_iff.1 h
  by_cases hz : g = 0x80000000
  · rw [hz, F32.normz_negZero]
    decide
  · rw [F32.normz_of_ne_negZero hz, F32.toNat_of_nonneg (F32.signBit_eq_false_of_ge_zero hge hz)]
    exact F32.isFinite_iff.1 hFinite

/-- Settles O16: both commands refuse the same gains, and an accepted one is stored by `normz` (`normz_toNat_lt_of_gainAccepted`). -/
theorem gainOperandCheck : Obligations.GainOperandCheck := by
  intro s note gain
  constructor
  · intro hRefused
    have hg : gainAccepted gain = false := gainAccepted_eq_false_iff.2 hRefused
    exact ⟨execKeyon_refused hg, execRestrike_refused hg⟩
  · intro hFinite hge
    have hg : gainAccepted gain = true := gainAccepted_iff.2 ⟨hFinite, hge⟩
    exact ⟨_, _, execKeyon_accepted hg, execRestrike_accepted hg, rfl, normz_toNat_lt_of_gainAccepted hg,
      F32.normz_of_ne_negZero, fun hz => hz ▸ F32.normz_negZero⟩

/-! ### What each command does -/

/-- Settles O13: both states are those `execNop` and `execKeyoff` write out. -/
theorem nopAndKeyoff : Obligations.NopAndKeyoff := fun _ => ⟨rfl, rfl⟩

/-- Settles O14: the two outcomes of `execKeyon`, told apart by the gain check. -/
theorem keyonAllocatesTheVoice : Obligations.KeyonAllocatesTheVoice := fun _ _ _ =>
  ⟨fun hFinite hge => execKeyon_accepted (gainAccepted_iff.2 ⟨hFinite, hge⟩),
    fun hRefused => execKeyon_refused (gainAccepted_eq_false_iff.2 hRefused)⟩

/-- Settles O15: the two outcomes of `execRestrike`, told apart by the gain check. -/
theorem restrikeInPlace : Obligations.RestrikeInPlace := fun _ _ =>
  ⟨fun hFinite hge => execRestrike_accepted (gainAccepted_iff.2 ⟨hFinite, hge⟩),
    fun hRefused => execRestrike_refused (gainAccepted_eq_false_iff.2 hRefused)⟩

/-- Settles O17: the fields `execClear` writes get their reset values, and those it leaves are the ones the statement keeps. -/
theorem clearKeepsTheConfiguration : Obligations.ClearKeepsTheConfiguration := fun _ => rfl

end Sys2Proof.Machine
end

section
/-! REGISTER ACCESS. What WRREG stores and refuses (41_register_access.md R65 to R69), the clamp of an accepted PAN value (R66),
what RDREG responds (R70), and which steps write the response stream (R64). -/

namespace Sys2Proof.Machine

/-! ### WRREG and RDREG of a register, by its address -/

section

variable {s : State} {r : Reg} {v : Word}

theorem exec_wrreg_readonly (hReadOnly : regReadOnly r = true) :
    exec (.wrreg (addrOfReg r) v) s = .next (s.raiseError .readonly (encode (.wrreg (addrOfReg r) v))) :=
  execWrreg_readonly (regOfAddr_addrOfReg r) hReadOnly

/-- Only a writable register accepts a value, so the access test needs no premise of its own. -/
theorem exec_wrreg_accepted (hAccepts : regAccepts r v = true) :
    exec (.wrreg (addrOfReg r) v) s = .next (s.writeReg r v) :=
  execWrreg_accepted (regOfAddr_addrOfReg r) (regReadOnly_of_accepts hAccepts) hAccepts

theorem exec_wrreg_refused (hWritable : regReadOnly r = false) (hRefuses : regAccepts r v = false) :
    exec (.wrreg (addrOfReg r) v) s = .next (s.raiseError .value (encode (.wrreg (addrOfReg r) v))) :=
  execWrreg_refused (regOfAddr_addrOfReg r) hWritable hRefuses

theorem exec_rdreg_mapped (s : State) (r : Reg) : exec (.rdreg (addrOfReg r)) s = .next (s.respond (s.readReg r)) :=
  execRdreg_mapped (regOfAddr_addrOfReg r)

end

/-- Settles O19: the unmapped case of each command. -/
theorem unmappedAddress : Obligations.UnmappedAddress := fun _ _ _ hUnmapped =>
  ⟨execWrreg_unmapped hUnmapped, execRdreg_unmapped hUnmapped⟩

/-- Settles O20: the eleven registers are the read-only ones (`regReadOnly_iff`), whose access test fails before the value is
looked at. -/
theorem readOnlyRegistersRefuseWrites : Obligations.ReadOnlyRegistersRefuseWrites := fun _ _ r hr =>
  exec_wrreg_readonly ((regReadOnly_iff r).2 hr)

/-- Settles O21: one outcome of `execWrreg` for each test that fails first, and one where all pass. -/
theorem wrregTestsInOrder : Obligations.WrregTestsInOrder := fun _ _ _ =>
  ⟨execWrreg_unmapped, fun _ hMapped =>
    ⟨execWrreg_readonly hMapped, execWrreg_refused hMapped, execWrreg_accepted hMapped⟩⟩

/-! ### Value domains (R65) -/

/-- SUSTAIN_LEVEL accepts the finite values in [0, 1]. -/
theorem regAccepts_sustainLevel_iff {v : Word} :
    regAccepts .sustainLevel v = true ↔ F32.isFinite v = true ∧ F32.ge v 0 = true ∧ F32.le v 0x3F800000 = true :=
  Bool.and_eq_true_iff.trans ((and_congr_left' Bool.and_eq_true_iff).trans and_assoc)

/-- The values SUSTAIN_LEVEL refuses, one case for each part of its domain. -/
theorem regAccepts_sustainLevel_eq_false_iff {v : Word} :
    regAccepts .sustainLevel v = false ↔ F32.isFinite v = false ∨ F32.ge v 0 = false ∨ F32.le v 0x3F800000 = false :=
  Bool.and_eq_false_iff.trans ((or_congr_left Bool.and_eq_false_iff).trans or_assoc)

/-- The registers whose domain is the finite values. -/
def finiteRegs : List Reg := [.pan, .accL, .accR, .attackTime, .decayTime, .releaseTime]

/-- A finite-valued register is writable and its value test is the finiteness of the value. -/
theorem domain_of_mem_finiteRegs {r : Reg} (hr : r ∈ finiteRegs) (v : Word) :
    regReadOnly r = false ∧ regAccepts r v = F32.isFinite v := by
  simp only [finiteRegs, List.mem_cons, List.not_mem_nil, or_false] at hr
  obtain rfl | rfl | rfl | rfl | rfl | rfl := hr <;> exact ⟨rfl, rfl⟩

theorem exec_wrreg_of_not_isFinite {v : Word} (hv : F32.isFinite v = false) (s : State) :
    ∀ a ∈ finiteRegs.map addrOfReg, exec (.wrreg a v) s = .next (s.raiseError .value (encode (.wrreg a v))) := by
  refine List.forall_mem_map.2 fun r hr => ?_
  obtain ⟨hWritable, hDomain⟩ := domain_of_mem_finiteRegs hr v
  exact exec_wrreg_refused hWritable (hDomain.trans hv)

/-- NOTE stores the low byte of the value. -/
theorem State.writeReg_note_eq (s : State) (v : Word) : s.writeReg .note v = { s with note := v.extractLsb' 0 8 } := by
  rw [State.writeReg, BitVec.setWidth_eq_extractLsb' (by decide)]

/-- Settles O22: an accepted value is stored by `writeReg`, a refused one raises CAUSE_VALUE; the tests of NOTE, PEAK_GAIN,
SAMPLE_RATE and SUSTAIN_LEVEL are their own, and the other six registers ask for a finite value. -/
theorem wrregDomainsAndStoredValues : Obligations.WrregDomainsAndStoredValues := by
  intro s v
  exact ⟨fun hNote => (exec_wrreg_accepted (r := .note) (decide_eq_true hNote)).trans (congrArg _ (s.writeReg_note_eq v)),
    fun hFinite hge => exec_wrreg_accepted (r := .peakGain) (gainAccepted_iff.2 ⟨hFinite, hge⟩),
    exec_wrreg_accepted (r := .pan), exec_wrreg_accepted (r := .accL), exec_wrreg_accepted (r := .accR),
    fun hRate => exec_wrreg_accepted (r := .sampleRate) (decide_eq_true hRate),
    exec_wrreg_accepted (r := .attackTime), exec_wrreg_accepted (r := .decayTime),
    fun hFinite hge hle => exec_wrreg_accepted (r := .sustainLevel) (regAccepts_sustainLevel_iff.2 ⟨hFinite, hge, hle⟩),
    exec_wrreg_accepted (r := .releaseTime),
    fun hNote => exec_wrreg_refused (r := .note) rfl (decide_eq_false hNote),
    fun hGain => exec_wrreg_refused (r := .peakGain) rfl (gainAccepted_eq_false_iff.2 hGain),
    fun hNotFinite => exec_wrreg_of_not_isFinite hNotFinite s,
    fun hRate => exec_wrreg_refused (r := .sampleRate) rfl (decide_eq_false (not_not_intro hRate)),
    fun hLevel => exec_wrreg_refused (r := .sustainLevel) rfl (regAccepts_sustainLevel_eq_false_iff.2 hLevel)⟩

/-! ### The clamp of PAN (R66) -/

namespace F32

theorem le_of_lt_eq_true {a b : Word} (h : lt a b = true) : le a b = true := by
  obtain ⟨ha, hb, hk⟩ := lt_iff.1 h
  exact le_iff.2 ⟨ha, hb, hk.le⟩

/-- Being at most 0: the sign bit set or the value +0. -/
theorem le_posZero_iff {a : Word} : le a 0 = true ↔ mag a ≤ infMag ∧ (signBit a = true ∨ mag a = 0) := by
  have h0 : mag (0 : Word) = 0 := by decide
  have hk : key (0 : Word) = 0 := by decide
  rw [le_iff, h0, hk]
  unfold key
  cases signBit a <;> simp

/-- Being at least 1.0. -/
theorem ge_one_iff {a : Word} : ge a 0x3F800000 = true ↔ mag a ≤ infMag ∧ signBit a = false ∧ 0x3F800000 ≤ mag a := by
  have h1 : mag (0x3F800000 : Word) = 0x3F800000 := by decide
  have hk : key (0x3F800000 : Word) = 0x3F800000 := by decide
  have hi : 0x3F800000 ≤ infMag := by decide
  rw [ge, le_iff, h1, hk]
  unfold key
  cases signBit a <;> simp [hi]
  omega

/-- 1.0 has one pattern: a value both at most and at least 1.0 is it. -/
theorem eq_one_of_le_of_ge {a : Word} (hle : le a 0x3F800000 = true) (hge : ge a 0x3F800000 = true) : a = 0x3F800000 := by
  obtain ⟨-, hs, hm⟩ := ge_one_iff.1 hge
  obtain ⟨-, hs' | hm'⟩ := le_one_iff.1 hle
  · simp [hs] at hs'
  · rw [← pack_signBit_mag a, hs, le_antisymm hm' hm]
    rfl

/-! `clamp x 0 1` in each of the three places `x` can be. -/

theorem clamp_of_below {v : Word} (h : ge v 0 = false) : clamp v 0 0x3F800000 = 0 := by
  rw [clamp, F32.max, h]
  rfl

theorem clamp_of_above {v : Word} (h0 : ge v 0 = true) (h1 : le v 0x3F800000 = false) :
    clamp v 0 0x3F800000 = 0x3F800000 := by
  rw [clamp, F32.max, if_pos h0, F32.min, h1]
  rfl

theorem clamp_of_inside {v : Word} (h0 : ge v 0 = true) (h1 : le v 0x3F800000 = true) : clamp v 0 0x3F800000 = v := by
  rw [clamp, F32.max, if_pos h0, F32.min, if_pos h1]

theorem normz_of_mag_eq_zero {v : Word} (h : mag v = 0) : normz v = 0 := by
  rw [← pack_signBit_mag v, h]
  cases signBit v <;> rfl

/-- A value in [0, 1], stored without −0, has a pattern at most that of 1.0. -/
theorem normz_toNat_le_one_of_inUnit {v : Word} (h : inUnit v = true) : (normz v).toNat ≤ 0x3F800000 := by
  obtain ⟨hm, hs⟩ := inUnit_iff.1 h
  by_cases h0 : mag v = 0
  · rw [normz_of_mag_eq_zero h0]
    decide
  · have hne : v ≠ 0x80000000 := by
      rintro rfl
      exact h0 (by decide)
    rw [normz_of_ne_negZero hne, toNat_of_nonneg (hs.resolve_right h0)]
    exact hm

end F32

/-! What PAN stores, in the same three places. -/

/-- A value at or below 0 is clamped to a zero, and `normz` makes that +0. -/
theorem panStored_of_le_zero {v : Word} (h : F32.le v 0 = true) : panStored v = 0 := by
  obtain ⟨hNotNaN, hLow⟩ := F32.le_posZero_iff.1 h
  cases hge : F32.ge v 0 with
  | false =>
    rw [panStored, one, F32.clamp_of_below hge]
    rfl
  | true =>
    obtain ⟨-, hHigh⟩ := F32.ge_zero_iff.1 hge
    have hZero : F32.mag v = 0 := hHigh.elim (fun hs => hLow.resolve_left (by simp [hs])) id
    have hle : F32.le v 0x3F800000 = true := F32.le_one_iff.2 ⟨hNotNaN, .inr (by omega)⟩
    rw [panStored, one, F32.clamp_of_inside hge hle, F32.normz_of_mag_eq_zero hZero]

/-- A value at or above 1.0 is clamped to 1.0. -/
theorem panStored_of_ge_one {v : Word} (h : F32.ge v 0x3F800000 = true) : panStored v = 0x3F800000 := by
  obtain ⟨hNotNaN, hs, -⟩ := F32.ge_one_iff.1 h
  have hge : F32.ge v 0 = true := F32.ge_zero_iff.2 ⟨hNotNaN, .inl hs⟩
  cases hle : F32.le v 0x3F800000 with
  | false =>
    rw [panStored, one, F32.clamp_of_above hge hle]
    rfl
  | true =>
    rw [F32.eq_one_of_le_of_ge hle h]
    rfl

/-- A value strictly between is kept: it is no −0, which is not above 0. -/
theorem panStored_of_between {v : Word} (h0 : F32.lt 0 v = true) (h1 : F32.lt v 0x3F800000 = true) : panStored v = v := by
  have hne : v ≠ 0x80000000 := by
    rintro rfl
    exact absurd h0 (by decide)
  rw [panStored, one, F32.clamp_of_inside (F32.le_of_lt_eq_true h0) (F32.le_of_lt_eq_true h1), F32.normz_of_ne_negZero hne]

/-- Settles O23: PAN accepts every finite value, and what it stores is said by the three cases of the clamp. -/
theorem panWritesAreClamped : Obligations.PanWritesAreClamped := fun _ v hFinite =>
  ⟨panStored v, exec_wrreg_accepted (r := .pan) hFinite, rfl, F32.normz_toNat_le_one_of_inUnit (F32.inUnit_clamp hFinite),
    panStored_of_le_zero, panStored_of_ge_one, panStored_of_between⟩

/-! ### RDREG and the response stream (R64, R70) -/

/-- Settles O25: both outcomes of `execRdreg`, and the words `readReg`, `statusWord` and `noteWord` are built from. -/
theorem rdregRespondsWithTheRegister : Obligations.RdregRespondsWithTheRegister := fun s =>
  ⟨exec_rdreg_mapped s, fun _ => execRdreg_unmapped, rfl, rfl, BitVec.setWidth_eq_append (by decide)⟩

/-- Every RDREG appends one word: the register's value, or 0 for an unmapped address. -/
theorem exec_rdreg_responses {a : Byte} {s t : State} (h : exec (.rdreg a) s = .next t) :
    ∃ v, t.responses = s.responses ++ [v] := by
  change execRdreg a s = .next t at h
  cases hm : regOfAddr a with
  | none => rw [execRdreg_unmapped hm] at h; cases h; exact ⟨0, rfl⟩
  | some r => rw [execRdreg_mapped hm] at h; cases h; exact ⟨s.readReg r, rfl⟩

/-- No other command writes the response stream. -/
theorem exec_responses_of_ne_rdreg {i : Instr} {s t : State} (hi : ∀ a, i ≠ .rdreg a) (h : exec i s = .next t) :
    t.responses = s.responses := by
  cases i with
  | rdreg a => exact absurd rfl (hi a)
  | nop => cases h; rfl
  | tick => cases h; rfl
  | keyoff => cases h; rfl
  | clear => cases h; rfl
  | keyon n g =>
    change execKeyon n g s = .next t at h
    cases hg : gainAccepted g with
    | false => rw [execKeyon_refused hg] at h; cases h; rfl
    | true => rw [execKeyon_accepted hg] at h; cases h; rfl
  | restrike g =>
    change execRestrike g s = .next t at h
    cases hg : gainAccepted g with
    | false => rw [execRestrike_refused hg] at h; cases h; rfl
    | true => rw [execRestrike_accepted hg] at h; cases h; rfl
  | wrreg a v =>
    obtain ⟨c, -, -, -, rfl⟩ | ⟨r, -, -, -, rfl⟩ := execWrreg_cases h
    · exact State.raiseError_responses _ _ _
    · exact State.writeReg_responses _ _ _

/-- Settles O27: an illegal word only raises an error, RDREG appends (`exec_rdreg_responses`) and the other commands do not
(`exec_responses_of_ne_rdreg`); a take is `takeResponse`. -/
theorem onlyRdregResponds : Obligations.OnlyRdregResponds := by
  refine ⟨fun s t w rest hin h => ?word, fun s rest oldest later hin hResponses => ?take⟩
  case word =>
    cases hd : decode w with
    | illegal c =>
      rw [step_illegal hin hd] at h
      cases h
      exact .inr ⟨nofun, rfl⟩
    | legal i =>
      rw [step_legal hin hd] at h
      rw [← s.beginInput_responses rest]
      by_cases hi : ∃ a, i = .rdreg a
      · obtain ⟨a, rfl⟩ := hi
        exact .inl ⟨⟨a, rfl⟩, exec_rdreg_responses h⟩
      · have hOther : ∀ a, i ≠ .rdreg a := not_exists.1 hi
        exact .inr ⟨fun a e => hOther a (Decoded.legal.inj e), exec_responses_of_ne_rdreg hOther h⟩
  case take =>
    rw [step_take hin, State.takeResponse, hResponses]
    rfl

end Sys2Proof.Machine
end

section
/-! GATE. The edge detector of TICK (42_gate.md): its table (R72), which inputs report an edge, and what a run of equal inputs leaves
(R73). -/

namespace Sys2Proof.Machine

/-- Settles O28: the eight entries evaluate. -/
theorem gateTransitionTable : Obligations.GateTransitionTable := ⟨rfl, rfl, rfl, rfl, rfl, rfl, rfl, rfl⟩

/-! ### One step, by the input and the one recorded before it -/

theorem lowish_eq_not_highish (g : Gate) : lowish g = !highish g := (Bool.not_not _).symm

theorem gateNext_eq_risingEdge_iff {g : Gate} {held : Bool} : gateNext g held = .risingEdge ↔ held = true ∧ highish g = false := by
  cases held <;> cases h : highish g <;> simp [gateNext, lowish_eq_not_highish, h]

theorem gateNext_eq_fallingEdge_iff {g : Gate} {held : Bool} : gateNext g held = .fallingEdge ↔ held = false ∧ highish g = true := by
  cases held <;> cases h : highish g <;> simp [gateNext, lowish_eq_not_highish, h]

/-- An input that repeats the recorded one reports no edge. -/
theorem gateNext_of_highish_eq {g : Gate} {held : Bool} (h : highish g = held) : gateNext g held = if held then .high else .low := by
  cases held <;> simp [gateNext, lowish_eq_not_highish, h]

/-- The new state records the input. -/
@[simp] theorem highish_gateNext (g : Gate) (held : Bool) : highish (gateNext g held) = held := by
  cases held <;> cases g <;> rfl

/-! ### A run of equal inputs -/

/-- From the second input of the run on, the input before it was the same (`highish_gateNext`), so no edge is reported. -/
theorem iterate_gateNext (g : Gate) (held : Bool) (n : Nat) :
    (fun h => gateNext h held)^[n + 2] g = if held then .high else .low := by
  rw [Function.iterate_succ_apply']
  refine gateNext_of_highish_eq ?_
  rw [Function.iterate_succ_apply']
  exact highish_gateNext _ held

/-- Settles O29: an edge is reported exactly where the input differs from the recorded one, a run is `iterate_gateNext`, and reset,
CLEAR and an accepted KEYON leave the Gate Low, from which a held input is a rising edge. -/
theorem gateReportsEachEdgeOnce : Obligations.GateReportsEachEdgeOnce := by
  refine ⟨fun g held => ⟨gateNext_eq_risingEdge_iff, gateNext_eq_fallingEdge_iff, highish_gateNext g held, lowish_eq_not_highish g⟩,
    iterate_gateNext, rfl, fun s => ⟨_, rfl, rfl⟩, fun s n gain hFinite hge => ?_⟩
  exact ⟨_, execKeyon_accepted (gainAccepted_iff.2 ⟨hFinite, hge⟩), rfl⟩

end Sys2Proof.Machine
end

section
/-! ADSR. The envelope step in each of its states (43_adsr.md R77 to R81), which edges it reacts to (R82), its rates (R75), and the
envelope sample of a TICK (R83). -/

namespace Sys2Proof.Machine

/-! ### The step in each state -/

/-- Settles O30: the step is `silenceStep`. -/
theorem adsrSilenceStep : Obligations.AdsrSilenceStep := fun _ _ _ => rfl

/-- Settles O31: the step is `attackStep`. -/
theorem adsrAttackStep : Obligations.AdsrAttackStep := fun _ _ _ => rfl

/-- Settles O32: the step is `decayStep`, whose threshold `decayTarget` is the product the statement writes out. -/
theorem adsrDecayStep : Obligations.AdsrDecayStep := fun _ _ _ => rfl

/-- Settles O33: `sustainStep` evaluates at each Gate. -/
theorem adsrSustainStep : Obligations.AdsrSustainStep := fun _ _ => ⟨rfl, rfl, rfl, rfl⟩

/-- Settles O34: the step is `releaseStep`. -/
theorem adsrReleaseStep : Obligations.AdsrReleaseStep := fun _ _ _ => rfl

/-! ### Which edges the step reacts to -/

section

variable {s : State} {env : Env} {pos : Word}

/-- All that the step reads of the Gate: whether it is a rising edge and, in Sustain alone, whether it is lowish. -/
theorem adsrStep_congr_gate {g g' : Gate} (hEdge : g = .risingEdge ↔ g' = .risingEdge)
    (hLowish : env = .sustain → lowish g = lowish g') : adsrStep s env pos g = adsrStep s env pos g' := by
  cases env with
  | silence => simp only [adsrStep, silenceStep, hEdge]
  | attack => rfl
  | decay => simp only [adsrStep, decayStep, hEdge]
  | sustain => simp only [adsrStep, sustainStep, hEdge, hLowish rfl]
  | release => simp only [adsrStep, releaseStep, hEdge]

/-- Decay, Sustain and Release each go to Attack on a rising edge and on nothing else (R82). -/
theorem adsrStep_fst_eq_attack_iff {g : Gate} (hSilence : env ≠ .silence) (hAttack : env ≠ .attack) :
    (adsrStep s env pos g).1 = .attack ↔ g = .risingEdge := by
  cases env with
  | silence => exact absurd rfl hSilence
  | attack => exact absurd rfl hAttack
  | decay =>
    simp only [adsrStep, decayStep]
    split_ifs with hEdge <;> simp [hEdge]
  | sustain => cases g <;> simp [adsrStep, sustainStep, lowish]
  | release =>
    simp only [adsrStep, releaseStep]
    split_ifs with hEdge <;> simp [hEdge]

end

/-- Settles O35: a falling edge is no rising edge, so the step takes it for a Low Gate, which is as lowish, and outside Sustain for a
High one (`adsrStep_congr_gate`). -/
theorem onlyARisingEdgeDivertsTheEnvelope : Obligations.OnlyARisingEdgeDivertsTheEnvelope := fun _ _ _ _ =>
  ⟨adsrStep_fst_eq_attack_iff, adsrStep_congr_gate (by decide) fun _ => rfl,
    fun hSustain => adsrStep_congr_gate (by decide) fun h => absurd h hSustain, rfl⟩

/-! ### Zeros and squares -/

namespace F32

/-- +0 is the zero with a clear sign bit. -/
theorem eq_posZero {w : Word} (hs : signBit w = false) (hm : mag w = 0) : w = 0 := by
  rw [← pack_signBit_mag w, hs, hm]
  rfl

section

variable {nan a b : Word}

/-- +0 over a positive finite value is +0. -/
theorem div_posZero (hb : mag b < infMag) (h0 : 0 < mag b) (hs : signBit b = false) : div nan 0 b = 0 := by
  have hz : mag (0 : Word) = 0 := by decide
  have hzs : signBit (0 : Word) = false := by decide
  apply eq_posZero
  · rw [signBit_div (by decide) hb h0, hzs, hs]
    rfl
  · rw [div_finite (by decide) hb h0, mag_roundRatio, hz, scaledMag_zero, Nat.zero_mul, roundMag_zero]

/-- 1.0 less itself is +0. -/
theorem one_sub_one : sub nan 0x3F800000 0x3F800000 = 0 := by
  obtain ⟨hs, -, hm⟩ := one_sub_unit (nan := nan) (a := 0x3F800000) (by decide)
  exact eq_posZero hs (hm (by decide))

/-- The square of an infinity is the positive infinity. -/
theorem mul_self_of_isInf (h : isInf a = true) : mul nan a a = inf false := by
  have hm : mag a = infMag := of_decide_eq_true h
  have hNaN : isNaN a = false := isNaN_false hm.le
  have hz : isZero a = false := by simp [isZero, hm, infMag]
  simp [mul, hNaN, h, hz]

/-- The square of a datum is no NaN. -/
theorem isNaN_mul_self (h : isNaN a = false) : isNaN (mul nan a a) = false := by
  cases hi : isInf a with
  | true =>
    rw [mul_self_of_isInf hi]
    decide
  | false =>
    have ha : mag a < infMag := lt_of_le_of_ne (not_lt.1 (of_decide_eq_false h)) (of_decide_eq_false hi)
    rw [mul_finite ha ha, isNaN_roundRatio]

/-- The square of a zero is +0. -/
theorem mul_self_of_isZero (h : isZero a = true) : mul nan a a = 0 := by
  have hm : mag a = 0 := isZero_iff.1 h
  have ha : mag a < infMag := by rw [hm]; decide
  exact eq_posZero (signBit_square (isNaN_false ha.le)) (mag_mul_zero ha ha (.inl hm))

end

end F32

/-! ### The rates -/

/-- The domains of R31 and R32, apart. -/
theorem State.configLegal_iff {s : State} : s.configLegal = true ↔ s.sampleRate ≠ 0 ∧ F32.isFinite s.attackTime = true ∧
    F32.isFinite s.decayTime = true ∧ F32.isFinite s.releaseTime = true ∧ F32.inUnit s.sustainLevel = true := by
  simp only [State.configLegal, Bool.and_eq_true, decide_eq_true_eq, and_assoc]

/-- A rate: a value in [0, 1] over a finite time that EPSILON limits from below. -/
theorem rate_finite_nonneg {nan x time : Word} (hx : F32.inUnit x = true) (ht : F32.isFinite time = true) :
    F32.isFinite (F32.div nan x (F32.max time EPSILON)) = true ∧ F32.ge (F32.div nan x (F32.max time EPSILON)) 0 = true := by
  obtain ⟨hxMag, hxSign⟩ := F32.inUnit_iff.1 hx
  obtain ⟨hSign, hNormal, hFinite⟩ := max_EPSILON ht
  exact F32.div_unit_normal hxMag hNormal hFinite hSign hxSign

/-- A rate of +0. -/
theorem rate_posZero {nan time : Word} (ht : F32.isFinite time = true) : F32.div nan 0 (F32.max time EPSILON) = 0 := by
  obtain ⟨hSign, hNormal, hFinite⟩ := max_EPSILON ht
  exact F32.div_posZero hFinite (by omega) hSign

/-- What Decay falls through, `1.0 - SUSTAIN_LEVEL`, is in [0, 1] again. -/
theorem inUnit_one_sub {nan x : Word} (hx : F32.inUnit x = true) : F32.inUnit (F32.sub nan one x) = true := by
  obtain ⟨hSign, hMag, -⟩ := F32.one_sub_unit (nan := nan) hx
  exact F32.inUnit_iff.2 ⟨hMag, .inl hSign⟩

/-- Settles O36: each rate divides a value in [0, 1] by a time that EPSILON limits from below (`rate_finite_nonneg`), and at the named
sustain levels that value is +0. -/
theorem ratesAreFiniteAndNotNegative : Obligations.RatesAreFiniteAndNotNegative := by
  intro s h
  obtain ⟨-, hAttack, hDecay, hRelease, hLevel⟩ := State.configLegal_iff.1 h
  refine ⟨rfl, rfl, rfl, ?bounds, fun hOne => ?decay, fun hZero => ?release⟩
  case bounds =>
    exact List.forall_mem_cons.2 ⟨rate_finite_nonneg (by decide) hAttack, List.forall_mem_cons.2
      ⟨rate_finite_nonneg (inUnit_one_sub hLevel) hDecay, List.forall_mem_singleton.2 (rate_finite_nonneg hLevel hRelease)⟩⟩
  case decay =>
    rw [State.decayRate, hOne, one, F32.one_sub_one, rate_posZero hDecay]
  case release =>
    rw [State.releaseRate, hZero, rate_posZero hRelease]

/-! ### The envelope sample -/

/-- Settles O37: TICK writes the square of the position it writes, and the sign and the zeros are those of a square
(`signBit_square`, `isNaN_mul_self`, `mul_self_of_isZero`). -/
theorem envelopeSampleIsTheSquare : Obligations.EnvelopeSampleIsTheSquare := fun _ =>
  ⟨_, rfl, rfl, rfl, rfl, fun hNaN => ⟨F32.signBit_square hNaN, F32.isNaN_mul_self hNaN⟩, F32.mul_self_of_isZero⟩

end Sys2Proof.Machine
end

section
/-! OSCILLATOR AND PHASE (44_oscillator_phase.md): DT (R85), and the oscillator's grouping and bounds (R88). -/

namespace Sys2Proof.Machine

namespace F32

/-- Being above 0: the sign bit clear and no zero. -/
theorem posZero_lt_iff {a : Word} : lt 0 a = true ↔ mag a ≤ infMag ∧ signBit a = false ∧ 0 < mag a := by
  have h0 : mag (0 : Word) = 0 := by decide
  have hk : key (0 : Word) = 0 := by decide
  rw [lt_iff, h0, hk]
  unfold key
  cases signBit a <;> simp

section

variable {nan a b : Word}

/-- A product of finite values does not depend on the order of its factors. -/
theorem mul_comm_finite (ha : mag a < infMag) (hb : mag b < infMag) : mul nan a b = mul nan b a := by
  rw [mul_finite ha hb, mul_finite hb ha, Nat.mul_comm, bne_comm]

/-- The magnitude of a product by a factor in [−1, 1] is at most that of the other factor. -/
theorem mag_mul_le_right (ha : mag a ≤ 0x3F800000) (hb : mag b < infMag) : mag (mul nan a b) ≤ mag b := by
  refine mag_mul_le ha le_rfl (by decide) hb hb.le ?_
  rw [scaledMag_one, Nat.mul_comm]

/-- Multiplying a finite value by 1.0 changes nothing. -/
theorem mul_one_right (ha : mag a < infMag) : mul nan a 0x3F800000 = a := by
  have hs : signBit (0x3F800000 : Word) = false := by decide
  have hm : mag (0x3F800000 : Word) = 0x3F800000 := by decide
  rw [mul_finite ha (by decide), hs, hm, scaledMag_one, Bool.bne_false, roundRatio, roundMag_scaledMag unit_pos ha.le,
    pack_signBit_mag]

end

end F32

/-! ### DT (R85) -/

/-- Settles O38: DT is the quotient by definition, and `dt_bounds` puts it in [2^-32, 1]. -/
theorem dtIsTheReciprocalOfTheSampleRate : Obligations.DtIsTheReciprocalOfTheSampleRate := by
  intro s hRate
  obtain ⟨hSign, hLow, hHigh⟩ := dt_bounds hRate
  have hone : 0x3F800000 < F32.infMag := by decide
  have hFinite : F32.mag s.dt < F32.infMag := hHigh.trans_lt hone
  exact ⟨rfl, F32.isFinite_iff.2 hFinite, F32.posZero_lt_iff.2 ⟨hFinite.le, hSign, by omega⟩,
    F32.le_one_iff.2 ⟨hFinite.le, .inr hHigh⟩⟩

/-! ### The oscillator (R88) -/

section

variable {nan k φ : Word}

/-- A multiple of a wrapped phase by at most 5.0 is below 32.0, so it is finite. -/
theorem isFinite_phaseMultiple (hk : F32.mag k ≤ 0x40A00000) (hφ : φ.toNat < 0x40C90FDB) :
    F32.isFinite (F32.mul nan k φ) = true := by
  obtain ⟨-, hm⟩ := F32.of_toNat_lt (w := φ) (by omega)
  have hle : F32.mag (F32.mul nan k φ) ≤ 0x42000000 :=
    F32.mag_mul_le hk (B := 0x40C90FDB) (by omega) (by decide) (by decide) (by decide) (by decide +kernel)
  exact F32.isFinite_iff.2 (hle.trans_lt (by decide))

/-- The sine of such a multiple is in [−1, 1] (SIN_FINITE, R12). -/
theorem mag_SIN_phaseMultiple_le (hk : F32.mag k ≤ 0x40A00000) (hφ : φ.toNat < 0x40C90FDB) :
    F32.mag (SIN (F32.mul nan k φ)) ≤ 0x3F800000 :=
  mag_SIN_le (isFinite_phaseMultiple hk hφ)

/-- At phase +0 every multiple has sine +0 (SIN_ZERO, R12). -/
theorem SIN_phaseMultiple_posZero (hk : F32.mag k < F32.infMag) (hs : F32.signBit k = false) : SIN (F32.mul nan k 0) = 0 := by
  rw [F32.mul_comm_finite hk (by decide), F32.mul_posZero hk hs, SIN_zero]

end

/-- The harmonics are at most 3.0, 2.0 and 1.0 in magnitude, so their sums are at most 5.0 and 6.0, and the quotient by 6.0 at most
1.0. -/
theorem mag_osc_le (s : State) {φ : Word} (hφ : φ.toNat < 0x40C90FDB) : F32.mag (osc s φ) ≤ 0x3F800000 := by
  have hφFinite : F32.isFinite φ = true :=
    F32.isFinite_iff.2 (by rw [(F32.of_toNat_lt (w := φ) (by omega)).2, F32.infMag_eq]; omega)
  have h1 := F32.mag_mul_le_right (nan := s.nan .harmonic1) (b := 0x40400000) (mag_SIN_le hφFinite) (by decide)
  have h3 := F32.mag_mul_le_right (nan := s.nan .harmonic3) (b := 0x40000000)
    (mag_SIN_phaseMultiple_le (nan := s.nan .triplePhase) (k := 0x40400000) (by decide) hφ) (by decide)
  have h5 := F32.mag_mul_le_right (nan := s.nan .harmonic5) (b := one)
    (mag_SIN_phaseMultiple_le (nan := s.nan .quintuplePhase) (k := 0x40A00000) (by decide) hφ) (by decide)
  have h13 := F32.mag_add_le (nan := s.nan .harmonicSum13) (C := 0x40A00000) h1 h3 (by decide) (by decide) (by decide)
    (by decide +kernel)
  have h135 := F32.mag_add_le (nan := s.nan .harmonicSum135) (C := 0x40C00000) h13 h5 (by decide) (by decide) (by decide)
    (by decide +kernel)
  exact F32.mag_div_le h135 (B := 0x40C00000) (by decide) (by decide) (by decide) (by decide) (by decide) (by decide +kernel)

/-- At phase +0 the three harmonics, their sums and the quotient are +0. -/
theorem osc_posZero (s : State) : osc s 0 = 0 := by
  have hadd (nan : Word) : F32.add nan 0 0 = 0 := F32.add_posZero (by decide)
  rw [osc, SIN_zero, SIN_phaseMultiple_posZero (by decide) (by decide), SIN_phaseMultiple_posZero (by decide) (by decide),
    F32.mul_posZero (by decide) (by decide), F32.mul_posZero (by decide) (by decide), F32.mul_posZero (by decide) (by decide),
    hadd, hadd, F32.div_posZero (by decide) (by decide) (by decide)]

/-- Settles O41: the grouping is that of `osc`, the range is its magnitude's bound (`mag_osc_le`), and the last product's factor is a
finite sine. -/
theorem oscillatorStaysInUnitRange : Obligations.OscillatorStaysInUnitRange := by
  intro s φ hφ
  have hmag : F32.mag (osc s φ) ≤ 0x3F800000 := mag_osc_le s hφ
  have hSine := mag_SIN_phaseMultiple_le (nan := s.nan .quintuplePhase) (k := 0x40A00000) (by decide) hφ
  have hone : 0x3F800000 < F32.infMag := by decide
  obtain ⟨hLow, hHigh⟩ := F32.within_one_iff.2 hmag
  exact ⟨rfl, F32.isFinite_iff.2 (hmag.trans_lt hone), hLow, hHigh, osc_posZero s, F32.mul_one_right (hSine.trans_lt hone)⟩

end Sys2Proof.Machine
end

section
/-! TICK (45_tick_mixer.md): the state a TICK answers with, stage by stage (R92, R93). -/

namespace Sys2Proof.Machine

/-- Settles O44: the state is the one `execTick` writes out, with the envelope sample (`envelopeSample`), the two mixer sums
(`accumulateLeft`, `accumulateRight`, over `gainLeft` and `gainRight`) and the phase update (`phaseNext`) each replaced by its formula. -/
theorem tickRendersOneFrame : Obligations.TickRendersOneFrame := fun _ => rfl

end Sys2Proof.Machine
end

section
/-! HOST CONTRACT (46_host_contract.md): the velocity curve at its ends (R96), which voice a note finds, and what a noteOn of a live
note does (R98, R99). -/

namespace Sys2Proof.Machine

/-! ### The velocity curve (R96) -/

/-- The limits of MIX_GAIN (R94), as a finite pattern whose sign bit is clear. -/
theorem MIX_GAIN_finite_nonneg : F32.signBit MIX_GAIN = false ∧ F32.mag MIX_GAIN < F32.infMag := by
  have hlt : MIX_GAIN.toNat < F32.infMag := by
    unfold MIX_GAIN
    split
    · assumption
    · decide
  obtain ⟨hSign, hMag⟩ := F32.of_toNat_lt (hlt.trans F32.infMag_lt)
  exact ⟨hSign, hMag ▸ hlt⟩

/-- The curve depends on the velocity only through the quotient of its clamp by 127.0. -/
theorem velocityCurve_of_clamp {v c : Int} {r : Word} (hc : min (max v 0) 127 = c)
    (hr : F32.div hostNaN (F32.ofInt c) 0x42FE0000 = r) :
    velocityCurve v = F32.mul hostNaN (F32.mul hostNaN r r) MIX_GAIN := by
  rw [velocityCurve, hc, hr]

theorem velocity_clamp_eq_ite (v : Int) : min (max v 0) 127 = if v < 0 then 0 else if 127 < v then 127 else v := by
  split
  · omega
  · split <;> omega

/-- At and above 127 the quotient is 1.0, and so is its square. -/
theorem velocityCurve_of_ge {v : Int} (h : 127 ≤ v) : velocityCurve v = MIX_GAIN := by
  have hQuotient : F32.div hostNaN (F32.ofInt 127) 0x42FE0000 = 0x3F800000 := by decide +kernel
  have hFinite := MIX_GAIN_finite_nonneg.2
  rw [velocityCurve_of_clamp (by omega) hQuotient, F32.mul_one_right (by decide), F32.mul_comm_finite (by decide) hFinite,
    F32.mul_one_right hFinite]

/-- At and below 0 the quotient is +0, and so is its product with itself and with MIX_GAIN. -/
theorem velocityCurve_of_le {v : Int} (h : v ≤ 0) : velocityCurve v = 0 := by
  have hZero : F32.ofInt 0 = 0 := by decide
  have hQuotient : F32.div hostNaN (F32.ofInt 0) 0x42FE0000 = 0 := by
    rw [hZero, F32.div_posZero (by decide) (by decide) (by decide)]
  obtain ⟨hSign, hFinite⟩ := MIX_GAIN_finite_nonneg
  rw [velocityCurve_of_clamp (by omega) hQuotient, F32.mul_posZero (by decide) (by decide), F32.mul_posZero hFinite hSign]

/-- Settles O58: the clamp is the two comparisons, and each end of the velocities is evaluated through it. -/
theorem velocityCurve_spec : Obligations.VelocityCurve :=
  ⟨fun v => velocityCurve_of_clamp (velocity_clamp_eq_ite v) rfl, fun _ => velocityCurve_of_ge, fun _ => velocityCurve_of_le⟩

/-! ### The voice of a note (R98, R99) -/

section

variable {y : System} {n : Byte} {voice : LiveVoice}

/-- An instance does not hold a note when its NOTE, if there is such an instance, is another. -/
theorem holdsNote_eq_false_iff {k : Nat} : y.holdsNote n k = false ↔ ∀ s, y.insts[k]? = some s → s.note ≠ n := by
  rw [← Bool.not_eq_true, holdsNote_iff]
  simp only [not_exists, not_and]

/-- The voice found for a note is the first live one whose instance holds it. -/
theorem findVoice_eq_some_iff : y.findVoice n = some voice ↔
    ∃ before after, y.host.live = before ++ voice :: after ∧ (∃ s, y.insts[voice.inst]? = some s ∧ s.note = n) ∧
      ∀ u ∈ before, ∀ s, y.insts[u.inst]? = some s → s.note ≠ n := by
  rw [System.findVoice, List.find?_eq_some_iff_append]
  simp only [Bool.not_eq_true', holdsNote_iff, holdsNote_eq_false_iff]
  constructor
  · rintro ⟨hHolds, before, after, hLive, hBefore⟩
    exact ⟨before, after, hLive, hHolds, hBefore⟩
  · rintro ⟨before, after, hLive, hHolds, hBefore⟩
    exact ⟨hHolds, before, after, hLive, hBefore⟩

/-- No voice is found for a note when no live one's instance holds it. -/
theorem findVoice_eq_none_iff : y.findVoice n = none ↔
    ∀ u ∈ y.host.live, ∀ s, y.insts[u.inst]? = some s → s.note ≠ n := by
  rw [System.findVoice, List.find?_eq_none]
  simp only [Bool.not_eq_true, holdsNote_eq_false_iff]

/-- A noteOn of a live note: one RESTRIKE to its instance, and its timer at 0. -/
theorem hostNoteOn_of_live (h : y.findVoice n = some voice) {z : System} {v : Int}
    (hIssue : y.issue voice.inst (.restrike (velocityCurve v)) = .ok z) :
    hostNoteOn y n v = .ok { z with host := { z.host with live := setTimer voice.inst 0 z.host.live } } := by
  simp only [hostNoteOn, h, hIssue]
  rfl

/-- A noteOff of a live note: one KEYOFF to its instance. -/
theorem hostNoteOff_of_live (h : y.findVoice n = some voice) : hostNoteOff y n = y.issue voice.inst .keyoff := by
  simp only [hostNoteOff, h]

/-- A noteOff of a note no live voice holds. -/
theorem hostNoteOff_of_none (h : y.findVoice n = none) : hostNoteOff y n = .ok y := by
  simp only [hostNoteOff, h]

end

/-- Settles O59: the voice found is `findVoice_eq_some_iff`; it holds the note, so its instance exists and the RESTRIKE executes there
(`issue_of_getElem?`); `setTimer_eq_map` says which timers that changes. -/
theorem notesAreRestruckInPlace : Obligations.NotesAreRestruckInPlace := by
  refine ⟨fun y n => ⟨fun _ => findVoice_eq_some_iff, findVoice_eq_none_iff⟩, fun y n v voice hFound => ?restrike,
    fun _ _ _ => hostNoteOff_of_live, fun _ _ => hostNoteOff_of_none⟩
  case restrike =>
    obtain ⟨s, hInst, -⟩ := holdsNote_iff.1 (holdsNote_of_findVoice hFound)
    have hIssue := issue_of_getElem? hInst (.restrike (velocityCurve v))
    refine ⟨_, hostNoteOn_of_live hFound hIssue, hIssue, ?_⟩
    rw [setTimer_eq_map]

end Sys2Proof.Machine
end

section
/-! ENCODING (30_encoding.md, 20_memory.md section 2): decoding what `encode` wrote, the illegal words and their causes (R54, R55), and
the byte order of commands and responses (R39). -/

namespace Sys2Proof

/-- Settles O1: every operand value is encoded, so the well-formedness premise is not used (log 19); `decode_encode` does the rest. -/
theorem decodeOfEncode : Obligations.DecodeOfEncode := fun i _ => decode_encode i

/-- Settles O4: each printed word is the word of its command (`decode_eq_legal_iff`). -/
theorem wordsOfTheSpecDecode : Obligations.WordsOfTheSpecDecode := by
  simp only [Obligations.WordsOfTheSpecDecode, decode_eq_legal_iff]
  decide

/-! ### Illegal words (R55) -/

/-- Both causes of an illegal word are errors. -/
theorem illegal_cause_ne_none {w : Cmd} {c : Cause} (h : decode w = .illegal c) : c ≠ .none := by
  rcases illegal_cause h with ⟨rfl, -⟩ | ⟨rfl, -⟩ <;> decide

theorem decode_eq_illegal_opcode_iff {w : Cmd} : decode w = .illegal .opcode ↔ 8 ≤ (opcField w).toNat := by
  refine ⟨fun h => ?_, fun h => if_pos h⟩
  rcases illegal_cause h with ⟨-, h8⟩ | ⟨hc, -⟩
  · exact h8
  · cases hc

/-- A field that a row of the opcode map requires to be zero, and is not. -/
def HasReservedFault (w : Cmd) : Prop :=
  rsvField w ≠ 0 ∨ ((opcField w).toNat ∈ [0, 1, 3, 4, 7] ∧ aField w ≠ 0) ∨ ((opcField w).toNat ∈ [0, 1, 4, 6, 7] ∧ dField w ≠ 0)

/-- A legal word has every field its row requires to be zero at zero: an A that its opcode leaves out is `aOf` of the command, and a
D likewise. -/
theorem not_hasReservedFault_of_legal {w : Cmd} {i : Instr} (h : decode w = .legal i) : ¬ HasReservedFault w := by
  obtain ⟨hrsv, hopc, ha, hd⟩ := fields_of_decode h
  rw [HasReservedFault, hrsv, hopc, ha, hd]
  cases i <;> simp [opcodeOf, aOf, dOf]

/-- With a legal opcode and every such field at zero, the row of the opcode accepts the word. -/
theorem decode_legal_of_not_hasReservedFault {w : Cmd} (h8 : (opcField w).toNat < 8) (h : ¬ HasReservedFault w) :
    ∃ i, decode w = .legal i := by
  simp only [HasReservedFault, not_or, not_and, not_not] at h
  obtain ⟨hrsv, ha, hd⟩ := h
  rw [decode, if_neg (by omega), if_neg (not_not_intro hrsv), decodeFields]
  generalize (opcField w).toNat = n at *
  interval_cases n <;> simp [ha, hd]

theorem decode_eq_illegal_reserved_iff {w : Cmd} :
    decode w = .illegal .reserved ↔ (opcField w).toNat < 8 ∧ HasReservedFault w := by
  constructor
  · intro h
    rcases illegal_cause h with ⟨hc, -⟩ | ⟨-, h8⟩
    · cases hc
    · refine ⟨h8, by_contra fun hno => ?_⟩
      obtain ⟨i, hi⟩ := decode_legal_of_not_hasReservedFault h8 hno
      rw [h] at hi
      cases hi
  · rintro ⟨h8, hFault⟩
    cases hd : decode w with
    | legal i => exact absurd hFault (not_hasReservedFault_of_legal hd)
    | illegal c =>
      rcases illegal_cause hd with ⟨-, hge⟩ | ⟨rfl, -⟩
      · omega
      · rfl

/-- Settles O3: one lemma for each cause, and `illegal_cause` for there being no other. -/
theorem illegalWordsAndTheirCauses : Obligations.IllegalWordsAndTheirCauses := fun _ =>
  ⟨decode_eq_illegal_opcode_iff, decode_eq_illegal_reserved_iff, fun _ h => (illegal_cause h).imp And.left And.left⟩

/-! ### Bytes (R39) -/

/-- The eight bytes put together again, from the top: each `++` joins two neighbouring slices of the word. -/
theorem commandOfBytes_commandBytes (w : Cmd) (rest : List Byte) : commandOfBytes (commandBytes w ++ rest) = some (w, rest) := by
  simp only [commandBytes, List.cons_append, List.nil_append, commandOfBytes]
  iterate 7 rw [BitVec.extractLsb'_append_extractLsb'_eq_extractLsb' (by decide)]
  rw [BitVec.extractLsb'_eq_self]

/-- Settles O5: the lists are written out byte by byte, and `commandOfBytes_commandBytes` reads a command back. -/
theorem commandBytesLeastSignificantFirst : Obligations.CommandBytesLeastSignificantFirst := by
  refine ⟨fun w rest => ⟨rfl, fun k hk => ?_, commandOfBytes_commandBytes w rest⟩, fun v => ⟨rfl, fun k hk => ?_⟩⟩
  · interval_cases k <;> rfl
  · interval_cases k <;> rfl

end Sys2Proof
end

section
/-! STEP (20_memory.md section 3, 60_exceptions.md, 70_reset_and_hazards.md): what the block does with the input it takes up (R54, R55,
R106, R115, R116), and which commands write which registers (10_state.md sections 2 to 4). -/

namespace Sys2Proof.Machine

/-! ### One input -/

/-- Settles O8: each input has its own outcome, and a command completes whatever it is (`exec_completes`). -/
theorem theBlockNeverStops : Obligations.TheBlockNeverStops := by
  refine ⟨fun s => ?_, fun s => step_idle⟩
  rcases hi : s.inputs with _ | ⟨x, rest⟩
  · exact ⟨s, step_idle hi⟩
  · cases x with
    | command w =>
      cases hd : decode w with
      | legal i =>
        rw [step_legal hi hd]
        exact exec_completes i _
      | illegal c => exact ⟨_, step_illegal hi hd⟩
    | reset => exact ⟨_, step_reset hi⟩
    | take => exact ⟨_, step_take hi⟩

/-- Settles O6: taking up the word is `beginInput`. -/
theorem stepExecutesTheDecodedCommand : Obligations.StepExecutesTheDecodedCommand := fun _ _ _ _ => step_legal

/-- Settles O10: the draw number of the state after reset is the next one. -/
theorem resetInputRestoresEveryRegister : Obligations.ResetInputRestoresEveryRegister := fun s _ h => ⟨s.drawNo + 1, step_reset h⟩

/-! ### Raising an error (R106) -/

/-- Settles O11: `noError` is that neither bit is set, and the bit to set is told by the cause. -/
theorem raisingAnErrorRecordsTheFirst : Obligations.RaisingAnErrorRecordsTheFirst := by
  intro s c cmd
  simp only [State.raiseError, State.noError_iff]
  by_cases hc : c = .value <;> simp [hc, opcField, aField]

/-- Settles O7: an illegal word raises an error whose cause is not CAUSE_VALUE (`illegal_cause_ne_value`), so the bit it sets is
ERR_ILLEGAL. -/
theorem illegalWordChangesOnlyTheErrorState : Obligations.IllegalWordChangesOnlyTheErrorState := by
  intro s w rest c hin hd
  rw [step_illegal hin hd, raisingAnErrorRecordsTheFirst, if_neg (illegal_cause_ne_value hd), if_neg (illegal_cause_ne_value hd)]
  rfl

/-- A WRREG does one thing to a state, whatever it is: it raises one error, or stores into one register. -/
theorem exec_wrreg_uniform (a : Byte) (v : Word) :
    (∃ c, ∀ s, exec (.wrreg a v) s = .next (s.raiseError c (encode (.wrreg a v)))) ∨
    (∃ r, ∀ s, exec (.wrreg a v) s = .next (s.writeReg r v)) := by
  cases hm : regOfAddr a with
  | none => exact .inl ⟨_, fun _ => execWrreg_unmapped hm⟩
  | some r =>
    cases hr : regReadOnly r with
    | true => exact .inl ⟨_, fun _ => execWrreg_readonly hm hr⟩
    | false =>
      cases hv : regAccepts r v with
      | true => exact .inr ⟨r, fun _ => execWrreg_accepted hm hr hv⟩
      | false => exact .inl ⟨_, fun _ => execWrreg_refused hm hr hv⟩

/-- Settles O24: the tests of WRREG do not read the state, and both raising an error and storing a value are idempotent. -/
theorem writesAreIdempotent : Obligations.WritesAreIdempotent := by
  intro s t a v h
  obtain ⟨c, hc⟩ | ⟨r, hr⟩ := exec_wrreg_uniform a v
  · rw [hc] at h ⊢
    cases h
    rw [raiseError_raiseError]
  · rw [hr] at h ⊢
    cases h
    rw [writeReg_writeReg]

/-! ### What a command can do -/

/-- Everything a command can do to a state: raise an error (before responding, for an RDREG), or take the one effect its rule gives
it. -/
inductive ExecOutcome (s : State) : Instr → State → Prop
  | raised (i : Instr) (c : Cause) (hc : c ≠ .none) : ExecOutcome s i (s.raiseError c (encode i))
  | nop : ExecOutcome s .nop s
  | tick (t : State) (h : execTick s = .next t) : ExecOutcome s .tick t
  | keyon (n : Byte) (g : Word) (hg : gainAccepted g = true) : ExecOutcome s (.keyon n g)
      { s with note := n, peakGain := F32.normz g, active := true, gate := .low, env := .silence, position := 0, phase := 0,
               envOut := 0 }
  | restrike (g : Word) (hg : gainAccepted g = true) :
      ExecOutcome s (.restrike g) { s with peakGain := F32.normz g, active := true }
  | keyoff : ExecOutcome s .keyoff { s with active := false }
  | wrreg (a : Byte) (r : Reg) (v : Word) (hv : regAccepts r v = true) : ExecOutcome s (.wrreg a v) (s.writeReg r v)
  | rdreg (a : Byte) (r : Reg) : ExecOutcome s (.rdreg a) (s.respond (s.readReg r))
  | rdregUnmapped (a : Byte) : ExecOutcome s (.rdreg a) ((s.raiseError .unmapped (encode (.rdreg a))).respond 0)
  | clear (t : State) (h : execClear s = .next t) : ExecOutcome s .clear t

theorem execOutcome {i : Instr} {s t : State} (h : exec i s = .next t) : ExecOutcome s i t := by
  cases i with
  | nop => cases h; exact .nop
  | tick => exact .tick t h
  | keyoff => cases h; exact .keyoff
  | clear => exact .clear t h
  | keyon n g =>
    change execKeyon n g s = .next t at h
    cases hg : gainAccepted g with
    | false => rw [execKeyon_refused hg] at h; cases h; exact .raised _ _ (by decide)
    | true => rw [execKeyon_accepted hg] at h; cases h; exact .keyon n g hg
  | restrike g =>
    change execRestrike g s = .next t at h
    cases hg : gainAccepted g with
    | false => rw [execRestrike_refused hg] at h; cases h; exact .raised _ _ (by decide)
    | true => rw [execRestrike_accepted hg] at h; cases h; exact .restrike g hg
  | wrreg a v =>
    obtain ⟨c, hc, -, -, rfl⟩ | ⟨r, -, -, hv, rfl⟩ := execWrreg_cases h
    · exact .raised _ c hc
    · exact .wrreg a r v hv
  | rdreg a =>
    change execRdreg a s = .next t at h
    cases hm : regOfAddr a with
    | none => rw [execRdreg_unmapped hm] at h; cases h; exact .rdregUnmapped a
    | some r => rw [execRdreg_mapped hm] at h; cases h; exact .rdreg a r

/-! ### Which commands write which registers -/

section

variable {i : Instr} {s t : State}

/-- The voice's own registers are written by TICK, KEYON and CLEAR. -/
theorem exec_keeps_voice (h : exec i s = .next t) (hTick : i ≠ .tick) (hKeyon : ∀ n g, i ≠ .keyon n g) (hClear : i ≠ .clear) :
    t.gate = s.gate ∧ t.env = s.env ∧ t.position = s.position ∧ t.phase = s.phase ∧ t.envOut = s.envOut := by
  cases execOutcome h with
  | tick => exact absurd rfl hTick
  | keyon n g => exact absurd rfl (hKeyon n g)
  | clear => exact absurd rfl hClear
  | wrreg a r v => simp
  | raised | nop | restrike | keyoff | rdreg | rdregUnmapped => exact ⟨rfl, rfl, rfl, rfl, rfl⟩

/-- ACTIVE is written by KEYON, RESTRIKE, KEYOFF and CLEAR. -/
theorem exec_keeps_active (h : exec i s = .next t) (hKeyon : ∀ n g, i ≠ .keyon n g) (hRestrike : ∀ g, i ≠ .restrike g)
    (hKeyoff : i ≠ .keyoff) (hClear : i ≠ .clear) : t.active = s.active := by
  cases execOutcome h with
  | keyon n g => exact absurd rfl (hKeyon n g)
  | restrike g => exact absurd rfl (hRestrike g)
  | keyoff => exact absurd rfl hKeyoff
  | clear => exact absurd rfl hClear
  | wrreg a r v => exact State.writeReg_active _ _ _
  | tick t h => cases h; rfl
  | raised | nop | rdreg | rdregUnmapped => rfl

/-- The configuration is written by WRREG alone. -/
theorem exec_keeps_config (h : exec i s = .next t) (hWrreg : ∀ a v, i ≠ .wrreg a v) :
    t.sampleRate = s.sampleRate ∧ t.attackTime = s.attackTime ∧ t.decayTime = s.decayTime ∧ t.sustainLevel = s.sustainLevel ∧
      t.releaseTime = s.releaseTime := by
  cases execOutcome h with
  | wrreg a r v => exact absurd rfl (hWrreg a v)
  | tick t h | clear t h => cases h; exact ⟨rfl, rfl, rfl, rfl, rfl⟩
  | raised | nop | keyon | restrike | keyoff | rdreg | rdregUnmapped => exact ⟨rfl, rfl, rfl, rfl, rfl⟩

/-- PAN is written by WRREG and CLEAR; the sums by TICK beside them; NOTE by KEYON, and PEAK_GAIN by KEYON and RESTRIKE. -/
theorem exec_keeps_operands (h : exec i s = .next t) (hWrreg : ∀ a v, i ≠ .wrreg a v) (hClear : i ≠ .clear) :
    t.pan = s.pan ∧ (i ≠ .tick → t.accL = s.accL ∧ t.accR = s.accR) ∧
      ((∀ n g, i ≠ .keyon n g) → t.note = s.note ∧ ((∀ g, i ≠ .restrike g) → t.peakGain = s.peakGain)) := by
  cases execOutcome h with
  | wrreg a r v => exact absurd rfl (hWrreg a v)
  | clear => exact absurd rfl hClear
  | tick t h => cases h; exact ⟨rfl, fun hTick => absurd rfl hTick, fun _ => ⟨rfl, fun _ => rfl⟩⟩
  | keyon n g => exact ⟨rfl, fun _ => ⟨rfl, rfl⟩, fun hKeyon => absurd rfl (hKeyon n g)⟩
  | restrike g => exact ⟨rfl, fun _ => ⟨rfl, rfl⟩, fun _ => ⟨rfl, fun hRestrike => absurd rfl (hRestrike g)⟩⟩
  | raised | nop | keyoff | rdreg | rdregUnmapped => exact ⟨rfl, fun _ => ⟨rfl, rfl⟩, fun _ => ⟨rfl, fun _ => rfl⟩⟩

end

/-- Settles O47: an illegal word writes none of these registers, and for a legal one each group has its lemma. -/
theorem eachRegisterHasItsWriters : Obligations.EachRegisterHasItsWriters := by
  intro s t w rest hin h
  cases hd : decode w with
  | illegal c =>
    rw [step_illegal hin hd] at h
    cases h
    exact ⟨fun _ _ _ => ⟨rfl, rfl, rfl, rfl, rfl⟩, fun _ _ _ _ => rfl, fun _ => ⟨rfl, rfl, rfl, rfl, rfl, fun _ => rfl,
      fun _ _ => ⟨rfl, rfl⟩, fun _ _ => ⟨rfl, fun _ => rfl⟩⟩⟩
  | legal i =>
    rw [step_legal hin hd] at h
    simp only [ne_eq, Decoded.legal.injEq]
    refine ⟨exec_keeps_voice (s := s.beginInput rest) h, exec_keeps_active (s := s.beginInput rest) h, fun hWrreg => ?_⟩
    obtain ⟨hRate, hAttack, hDecay, hSustain, hRelease⟩ := exec_keeps_config h hWrreg
    have hOperands := exec_keeps_operands h hWrreg
    exact ⟨hRate, hAttack, hDecay, hSustain, hRelease, fun hClear => (hOperands hClear).1,
      fun hClear => (hOperands hClear).2.1, fun hClear => (hOperands hClear).2.2⟩

end Sys2Proof.Machine
end

section
/-! BINARY32 (00_scope.md section 5): the four rounded operations (R9) and the exact remainder (R11), on finite operands. -/

namespace Sys2Proof.Machine.F32

/-! ### Signs and magnitudes -/

/-- The integer with a sign and a magnitude. -/
def signed (s : Bool) (n : Nat) : Int := if s then -(n : Int) else n

theorem abs_signed (s : Bool) (n : Nat) : |signed s n| = n := by
  cases s <;> simp [signed]

theorem signed_mul_signed (s t : Bool) (m n : Nat) : signed s m * signed t n = signed (s != t) (m * n) := by
  cases s <;> cases t <;> simp [signed]

theorem signed_not (s : Bool) (n : Nat) : signed (!s) n = -signed s n := by
  cases s <;> simp [signed]

theorem signed_natAbs (n : Int) : signed (decide (n < 0)) n.natAbs = n := by
  simp only [signed, decide_eq_true_eq]
  split <;> omega

theorem scaled_eq_signed (w : Word) : scaled w = signed (signBit w) (scaledMag (mag w)) := rfl

theorem scaled_of_signBit_eq_false {w : Word} (h : signBit w = false) : scaled w = scaledMag (mag w) := by
  rw [scaled_eq_signed, h]
  rfl

/-! ### Rounding to nearest even (R9) -/

/-- `r` is the exact ratio `n / d`, in units of 2^-149, rounded to nearest even: an infinity from half an ulp past the largest finite
value on, else no finite value is nearer, and `r` is even on a tie (R9; log 11). -/
def IsRounded (r : Word) (n d : Int) : Prop :=
  (isInf r = true ↔ (2 ^ 277 - 2 ^ 252) * d ≤ |n|) ∧ isNaN r = false ∧
  ∀ c : Word, isFinite r = true → isFinite c = true →
    |scaled r * d - n| ≤ |scaled c * d - n| ∧
    (|scaled r * d - n| = |scaled c * d - n| → scaled c ≠ scaled r → r.toNat % 2 = 0)

theorem natCast_two_pow_sub {m n : Nat} (h : n ≤ m) : ((2 ^ m - 2 ^ n : Nat) : Int) = 2 ^ m - 2 ^ n := by
  rw [Nat.cast_sub (Nat.pow_le_pow_right two_pos h), Nat.cast_pow, Nat.cast_pow, Nat.cast_ofNat]

/-- What `roundRatio` answers is the ratio rounded. -/
theorem isRounded_roundRatio {s : Bool} {num den : Nat} (hd : 0 < den) :
    IsRounded (roundRatio s num den) (signed s num) den := by
  refine ⟨?_, isNaN_roundRatio s num den, fun c hr _ => ?_⟩
  · rw [isInf_roundRatio hd, abs_signed, ← natCast_two_pow_sub (by decide), ← Nat.cast_mul, Nat.cast_le]
  · rw [isFinite_iff, mag_roundRatio] at hr
    exact ⟨roundRatio_nearest hd hr, roundRatio_tie hd hr⟩

section

variable {nan a b : Word}

/-- A sum is a rounded ratio, an exact zero included: its zero is the one `roundRatio` answers with that sign. -/
theorem add_eq_roundRatio (ha : mag a < infMag) (hb : mag b < infMag) : ∃ s,
    add nan a b = roundRatio s (scaled a + scaled b).natAbs 1 ∧ signed s (scaled a + scaled b).natAbs = scaled a + scaled b := by
  rw [add_finite ha hb]
  by_cases h0 : scaled a + scaled b = 0
  · refine ⟨signBit a && signBit b, ?_, ?_⟩
    · rw [if_pos h0, h0, Int.natAbs_zero, roundRatio, roundMag_zero, zero]
    · simp [h0, signed]
  · exact ⟨_, if_neg h0, signed_natAbs _⟩

theorem isRounded_add (ha : mag a < infMag) (hb : mag b < infMag) : IsRounded (add nan a b) (scaled a + scaled b) 1 := by
  obtain ⟨s, hAdd, hSum⟩ := add_eq_roundRatio (nan := nan) ha hb
  have h := isRounded_roundRatio (s := s) (num := (scaled a + scaled b).natAbs) one_pos
  rwa [hSum, ← hAdd, Nat.cast_one] at h

theorem isRounded_mul (ha : mag a < infMag) (hb : mag b < infMag) : IsRounded (mul nan a b) (scaled a * scaled b) unit := by
  rw [mul_finite ha hb, scaled_eq_signed a, scaled_eq_signed b, signed_mul_signed]
  exact isRounded_roundRatio unit_pos

/-- A quotient is the exact quotient rounded, the signs of both operands gathered in the dividend. -/
theorem isRounded_div (ha : mag a < infMag) (hb : mag b < infMag) (h0 : 0 < mag b) :
    IsRounded (div nan a b) (signed (signBit a != signBit b) (scaledMag (mag a) * unit)) (scaledMag (mag b)) := by
  rw [div_finite ha hb h0]
  exact isRounded_roundRatio (scaledMag_pos.2 h0)

/-- Gathering the signs in the dividend changes no distance. -/
theorem abs_mul_sub_gathered (z : Int) : |z * scaled b - scaled a * unit| =
    |z * scaledMag (mag b) - signed (signBit a != signBit b) (scaledMag (mag a) * unit)| := by
  rw [scaled_eq_signed a, scaled_eq_signed b]
  have hUnit (s : Bool) (m : Nat) : signed s m * (unit : Int) = signed s (m * unit) := by cases s <;> simp [signed]
  rw [hUnit]
  cases signBit b
  · rw [Bool.bne_false]
    rfl
  · have hNeg : signed true (scaledMag (mag b)) = -(scaledMag (mag b) : Int) := rfl
    rw [Bool.bne_true, signed_not, hNeg, ← abs_neg]
    congr 1
    ring

end

theorem unit_cast : (unit : Int) = 2 ^ 149 := by
  rw [unit, Nat.cast_pow, Nat.cast_ofNat]

end Sys2Proof.Machine.F32

namespace Sys2Proof.Machine

/-- Settles O48: `isRounded_add`, over the divisor 1. -/
theorem addIsRoundedToNearestEven : Obligations.AddIsRoundedToNearestEven := by
  intro nan a b ha hb
  have h := F32.isRounded_add (nan := nan) (F32.isFinite_iff.1 ha) (F32.isFinite_iff.1 hb)
  simpa only [F32.IsRounded, mul_one] using h

/-- Settles O49: `isRounded_mul`, with `unit` written out. -/
theorem mulIsRoundedToNearestEven : Obligations.MulIsRoundedToNearestEven := by
  intro nan a b ha hb
  have h := F32.isRounded_mul (nan := nan) (F32.isFinite_iff.1 ha) (F32.isFinite_iff.1 hb)
  rwa [F32.unit_cast] at h

/-- Settles O50: `isRounded_div`, whose distances are those of the statement (`abs_mul_sub_gathered`). -/
theorem divIsRoundedToNearestEven : Obligations.DivIsRoundedToNearestEven := by
  intro nan a b ha hb h0
  have hb0 : 0 < F32.mag b := Nat.pos_of_ne_zero (of_decide_eq_false h0)
  obtain ⟨hInf, hNaN, hNear⟩ := F32.isRounded_div (nan := nan) (F32.isFinite_iff.1 ha) (F32.isFinite_iff.1 hb) hb0
  have hDividend : |F32.scaled a * F32.unit| =
      |F32.signed (F32.signBit a != F32.signBit b) (F32.scaledMag (F32.mag a) * F32.unit)| := by
    simpa using F32.abs_mul_sub_gathered (a := a) (b := b) 0
  have hDivisor : |F32.scaled b| = F32.scaledMag (F32.mag b) := F32.abs_signed _ _
  simp only [← F32.abs_mul_sub_gathered] at hNear
  rw [← hDivisor, ← hDividend] at hInf
  rw [F32.unit_cast] at hInf hNear
  exact ⟨hInf, hNaN, hNear⟩

namespace F32

/-! ### The square root -/

/-- The root of a value that is not negative is the pattern of `sqrtMag`, a zero's included. -/
theorem sqrt_nonneg {nan a : Word} (ha : mag a < infMag) (hs : signBit a = false) :
    sqrt nan a = pack false (sqrtMag (scaledMag (mag a))) := by
  rcases Nat.eq_zero_or_pos (mag a) with h0 | h0
  · have hz : a = 0 := eq_posZero hs h0
    subst hz
    have hRoot : sqrtMag (scaledMag (mag (0 : Word))) = 0 := by decide +kernel
    rw [hRoot, sqrt, isZero_iff.2 h0, isNaN_false ha.le]
    rfl
  · exact sqrt_finite ha h0 hs

theorem mag_sqrt_nonneg {nan a : Word} (ha : mag a < infMag) (hs : signBit a = false) :
    mag (sqrt nan a) = sqrtMag (scaledMag (mag a)) ∧ signBit (sqrt nan a) = false ∧ mag (sqrt nan a) < infMag := by
  have hFinite : sqrtMag (scaledMag (mag a)) < infMag := sqrtMag_lt_inf (scaledMag_mul_unit_lt ha)
  have hlt := hFinite.trans infMag_lt
  rw [sqrt_nonneg ha hs, mag_pack _ _ hlt, signBit_pack _ _ hlt]
  exact ⟨rfl, rfl, hFinite⟩

end F32

/-- Settles O51: the root is finite and not negative, and `sqrtMag_midpoint` is the statement on magnitudes. -/
theorem sqrtIsRoundedToNearest : Obligations.SqrtIsRoundedToNearest := by
  intro nan a ha hs
  have haFinite := F32.isFinite_iff.1 ha
  obtain ⟨hMag, hSign, hFinite⟩ := F32.mag_sqrt_nonneg (nan := nan) haFinite hs
  refine ⟨F32.isFinite_iff.2 hFinite, hSign, fun c _ hc => ?_⟩
  obtain ⟨hBelow, hAbove⟩ := F32.sqrtMag_midpoint (c := F32.mag c) (F32.scaledMag_mul_unit_lt haFinite) (hMag ▸ hFinite)
  rw [F32.scaled_of_signBit_eq_false hc, F32.scaled_of_signBit_eq_false hSign, F32.scaled_of_signBit_eq_false hs, hMag, sq,
    ← F32.unit_cast, Nat.cast_lt, Nat.cast_lt, F32.scaledMag_lt_iff, F32.scaledMag_lt_iff]
  exact ⟨fun h => by exact_mod_cast hBelow h, fun h => by exact_mod_cast hAbove h⟩

/-! ### The exact remainder (R11) -/

/-- Settles O52: `fmod_finite` is the statement on magnitudes; a dividend of −0 has the remainder +0. -/
theorem fmodIsExact : Obligations.FmodIsExact := by
  intro nan x y hx hx0 hy hy0
  have hxFinite := F32.isFinite_iff.1 hx
  have hyFinite := F32.isFinite_iff.1 hy
  obtain ⟨-, hySign, hyPos⟩ := F32.posZero_lt_iff.1 hy0
  obtain ⟨hRem, hBelow, hSign, hZero⟩ := F32.fmod_finite (nan := nan) hxFinite hyFinite hyPos
  have hxValue : F32.scaled x = F32.scaledMag (F32.mag x) := by
    obtain ⟨-, hs | hm⟩ := F32.ge_zero_iff.1 hx0
    · exact F32.scaled_of_signBit_eq_false hs
    · simp [F32.scaled, hm]
  have hNonneg : F32.signBit (F32.fmod nan x y) = false := by
    obtain ⟨-, hs | hm⟩ := F32.ge_zero_iff.1 hx0
    · exact hSign hs
    · rw [hm, F32.scaledMag_zero, Nat.zero_mod] at hRem
      exact hZero (Nat.eq_zero_of_not_pos fun h => by have := F32.scaledMag_pos.2 h; omega)
  refine ⟨F32.isFinite_iff.2 (hBelow.trans hyFinite), hNonneg, ?_, F32.lt_iff.2 ⟨by omega, hyFinite.le, ?_⟩⟩
  · rw [F32.scaled_of_signBit_eq_false hNonneg, hxValue, F32.scaled_of_signBit_eq_false hySign, hRem, Int.natCast_mod]
  · simp [F32.key, hNonneg, hySign, hBelow]

end Sys2Proof.Machine
end

section
/-! FREQUENCY AND PHASE (44_oscillator_phase.md): FREQ (R86), PHASE_INC (R87), the phase update (R89), and what the next phase depends
on (45_tick_mixer.md R92 (c)). -/

namespace Sys2Proof.Machine

/-! ### FREQ (R86) -/

/-- `(NOTE - 69) / 12.0` of the lowest and the highest note, -5.75 and 15.5, bound that of the 256 notes. -/
theorem noteRatio_range_table : ∀ n : Fin 256, F32.le 0xC0B80000 (F32.div 0 (F32.ofInt ((n.val : Int) - 69)) 0x41400000) = true ∧
    F32.le (F32.div 0 (F32.ofInt ((n.val : Int) - 69)) 0x41400000) 0x41780000 = true := by decide +kernel

/-- The ratio of a note that is known. -/
theorem noteRatio_of_note {s : State} {n : Byte} (h : s.note = n) :
    s.noteRatio = F32.div 0 (F32.ofInt ((n.toNat : Int) - 69)) 0x41400000 := by rw [noteRatio_eq, h]

/-- Note 69 has the ratio +0, where EXP2 is 1.0 (EXP2_ZERO, R12). -/
theorem freq_of_note_69 {s : State} (h : s.note = 69) : s.freq = 0x43DC0000 := by
  have hZero : F32.div 0 (F32.ofInt (((69 : Byte).toNat : Int) - 69)) 0x41400000 = 0 := by decide +kernel
  rw [State.freq, noteRatio_of_note h, hZero, EXP2_zero, F32.mul_one_right (by decide)]

/-- Settles O39: the ratio's range is a table over the notes, its exact values evaluate, and FREQ is positive by `freq_bounds`. -/
theorem frequencyLaw : Obligations.FrequencyLaw := by
  intro s
  obtain ⟨hLow, hHigh⟩ := noteRatio_range_table ⟨s.note.toNat, s.note.isLt⟩
  rw [← noteRatio_eq s] at hLow hHigh
  obtain ⟨hSign, hPos, hNotNaN⟩ := freq_bounds s
  refine ⟨rfl, rfl, hLow, hHigh, F32.posZero_lt_iff.2 ⟨hNotNaN, hSign, hPos⟩, fun h => ?_, fun h => ?_, fun h => ?_, freq_of_note_69⟩
  all_goals
    rw [noteRatio_of_note h]
    decide +kernel

/-! ### PHASE_INC (R87) -/

/-- PHASE_INC is a product of positive data: no NaN and not negative. -/
theorem phaseInc_nonneg {s : State} (h : s.sampleRate ≠ 0) : F32.signBit s.phaseInc = false ∧ F32.mag s.phaseInc ≤ F32.infMag := by
  obtain ⟨hFreqSign, hFreqPos, hFreqMag⟩ := freq_bounds s
  obtain ⟨hDtSign, hDtLow, hDtHigh⟩ := dt_bounds h
  have hone : 0x3F800000 ≤ F32.infMag := by decide
  obtain ⟨hSign, hMag⟩ := F32.mul_of_pos (nan := s.nan .radiansPerSecond) (a := TWO_PI) (by decide) hFreqSign (by decide) hFreqMag
    (by decide) hFreqPos
  have hPos : 0 < F32.mag (F32.mul (s.nan .radiansPerSecond) TWO_PI s.freq) := F32.mag_mul_pos (by decide) (by decide) hFreqMag hFreqPos
  exact F32.mul_of_pos hSign hDtSign hMag (hDtHigh.trans hone) hPos (by omega)

/-- Settles O40: the formula is the definition, and the rest is `phaseInc_nonneg`. -/
theorem phaseIncrementIsNotNegative : Obligations.PhaseIncrementIsNotNegative := fun _ hRate =>
  ⟨rfl, F32.isNaN_false (phaseInc_nonneg hRate).2, (phaseInc_nonneg hRate).1⟩

/-! ### The phase update (R89) -/

/-- The sum of a wrapped phase and a finite PHASE_INC is finite and not negative. -/
theorem phaseSum_finite_nonneg {s : State} (hPhase : s.phase.toNat < 0x40C90FDB) (hRate : s.sampleRate ≠ 0)
    (hInc : F32.isFinite s.phaseInc = true) (nan : Word) :
    F32.mag (F32.add nan s.phase s.phaseInc) < F32.infMag ∧ F32.signBit (F32.add nan s.phase s.phaseInc) = false := by
  obtain ⟨hSign, hMag⟩ := F32.of_toNat_lt (w := s.phase) (by omega)
  have hFinite := F32.isFinite_iff.1 hInc
  have hlt : 0x40C90FDB < F32.infMag := by decide
  exact ⟨F32.phase_sum_finite (hMag ▸ hPhase) hFinite,
    F32.signBit_add_of_nonneg (by omega) hFinite hSign (phaseInc_nonneg hRate).1⟩

/-- Settles O42: the remainder of a finite sum that is not negative is exact, not negative and below TWO_PI (`fmodIsExact`). -/
theorem phaseWrapsExactly : Obligations.PhaseWrapsExactly := by
  intro s hPhase hRate hInc
  obtain ⟨hSumFinite, hSumSign⟩ := phaseSum_finite_nonneg hPhase hRate hInc (s.nan .phaseSum)
  obtain ⟨-, hSign, hValue, hBelow⟩ := fmodIsExact (s.nan .phaseWrap) _ TWO_PI (F32.isFinite_iff.2 hSumFinite)
    (F32.ge_zero_iff.2 ⟨hSumFinite.le, .inl hSumSign⟩) (by decide) (by decide)
  refine ⟨F32.isFinite_iff.2 hSumFinite, hValue, ?_⟩
  have hTwoPi : F32.key TWO_PI = 0x40C90FDB := by decide
  obtain ⟨-, -, hKey⟩ := F32.lt_iff.1 hBelow
  rw [hTwoPi, F32.key, hSign] at hKey
  rw [phaseNext, F32.toNat_of_nonneg hSign]
  exact Int.ofNat_lt.1 hKey

/-- The next phase reads PHASE, NOTE and SAMPLE_RATE (and the draw number, log 4) and nothing else. -/
theorem phaseNext_congr {s u : State} (hPhase : s.phase = u.phase) (hNote : s.note = u.note) (hRate : s.sampleRate = u.sampleRate)
    (hDraw : s.drawNo = u.drawNo) : phaseNext s = phaseNext u := by
  have hNaN := State.nan_eq_of_drawNo hDraw
  have hInc : s.phaseInc = u.phaseInc := by
    simp only [State.phaseInc, State.freq, State.noteRatio, State.dt, hNaN, hNote, hRate]
  rw [phaseNext, phaseNext, hNaN, hNaN, hPhase, hInc]

/-- Settles O46: TICK writes `phaseNext` to PHASE (`phaseNext_congr`). -/
theorem phaseIsIndependentOfTheEnvelope : Obligations.PhaseIsIndependentOfTheEnvelope := fun _ _ hPhase hNote hRate hDraw =>
  ⟨_, _, rfl, rfl, phaseNext_congr hPhase hNote hRate hDraw⟩

end Sys2Proof.Machine
end

section
/-! PAN MIXER AND TICK (45_tick_mixer.md): the pan gains (R90), and what a silent voice or a frame sample of +0 leaves in the sums (R91,
R92). -/

namespace Sys2Proof.Machine

namespace F32

/-! ### Roots and sums at zero -/

section

variable {nan a b : Word}

theorem sqrt_posZero : sqrt nan 0 = 0 := by
  have hZero : isZero (0 : Word) = true := by decide
  rw [sqrt, if_neg (by decide), if_pos hZero]

theorem sqrt_one : sqrt nan 0x3F800000 = 0x3F800000 := by
  rw [sqrt_finite (by decide) (by decide) (by decide)]
  decide +kernel

theorem sqrt_half : sqrt nan 0x3F000000 = 0x3F3504F3 := by
  rw [sqrt_finite (by decide) (by decide) (by decide)]
  decide +kernel

theorem one_sub_posZero : sub nan 0x3F800000 0 = 0x3F800000 := by
  rw [sub_finite (by decide) (by decide)]
  decide +kernel

theorem one_sub_half : sub nan 0x3F800000 0x3F000000 = 0x3F000000 := by
  rw [sub_finite (by decide) (by decide)]
  decide +kernel

/-- A sum of zeros is the zero that is negative when both are. -/
theorem add_zeros (ha : mag a = 0) (hb : mag b = 0) : add nan a b = zero (signBit a && signBit b) := by
  have hFinite {w : Word} (hw : mag w = 0) : mag w < infMag := by rw [hw]; decide
  have hValue {w : Word} (hw : mag w = 0) : scaled w = 0 := by simp [scaled, hw]
  rw [add_finite (hFinite ha) (hFinite hb), hValue ha, hValue hb, if_pos (add_zero 0)]

end

end F32

/-! ### The pan gains (R90) -/

section

variable {s : State}

theorem inUnit_gainLeft (h : F32.inUnit s.pan = true) : F32.inUnit (gainLeft s) = true := by
  obtain ⟨hMag, hSign⟩ := F32.inUnit_iff.1 h
  exact F32.inUnit_iff.2 (F32.sqrt_unit hMag hSign)

theorem inUnit_gainRight (h : F32.inUnit s.pan = true) : F32.inUnit (gainRight s) = true := by
  obtain ⟨hSign, hMag, -⟩ := F32.one_sub_unit (nan := s.nan .panRight) h
  exact F32.inUnit_iff.2 (F32.sqrt_unit hMag (.inl hSign))

/-- A PAN that is not −0 has a left gain that is not −0. -/
theorem signBit_gainLeft (h : s.pan.toNat ≤ 0x3F800000) : F32.signBit (gainLeft s) = false := by
  obtain ⟨hSign, hMag⟩ := F32.of_toNat_lt (w := s.pan) (by omega)
  exact F32.signBit_sqrt (hMag ▸ h) hSign

/-- The right gain is never −0, since `1.0 - PAN` is not. -/
theorem signBit_gainRight (h : F32.inUnit s.pan = true) : F32.signBit (gainRight s) = false := by
  obtain ⟨hSign, hMag, -⟩ := F32.one_sub_unit (nan := s.nan .panRight) h
  exact F32.signBit_sqrt hMag hSign

end

/-- Settles O43: a root of a value in [0, 1] is there too (`sqrt_unit`), and so is `1.0 - PAN` (`one_sub_unit`); the three named PANs
evaluate. -/
theorem panGainsAreInUnitRange : Obligations.PanGainsAreInUnitRange := by
  intro s h
  refine ⟨rfl, rfl, inUnit_gainLeft h, inUnit_gainRight h, fun hLeft => ?_, fun hRight => ?_, fun hCentre => ?_⟩
  · rw [gainLeft, gainRight, hLeft, one, F32.sqrt_one, F32.one_sub_one, F32.sqrt_posZero]
    exact ⟨rfl, rfl⟩
  · rw [gainLeft, gainRight, hRight, one, F32.sqrt_posZero, F32.one_sub_posZero, F32.sqrt_one]
    exact ⟨rfl, rfl⟩
  · rw [gainLeft, gainRight, hCentre, one, F32.one_sub_half, F32.sqrt_half, F32.sqrt_half]
    exact ⟨rfl, rfl⟩

/-! ### A contribution of zero (R91) -/

/-- A value in [0, 1] is finite. -/
theorem mag_lt_infMag_of_inUnit {x : Word} (h : F32.inUnit x = true) : F32.mag x < F32.infMag := by
  obtain ⟨hMag, -⟩ := F32.inUnit_iff.1 h
  have hone : 0x3F800000 < F32.infMag := by decide
  exact hMag.trans_lt hone

/-- Adding a zero sample, of either sign, to a finite sum: a nonzero sum stays, +0 stays +0, and a zero stays a zero. -/
theorem add_zeroSample {nan nan' acc smp gain : Word} (hAcc : F32.isFinite acc = true) (hSmp : F32.mag smp = 0)
    (hGain : F32.inUnit gain = true) :
    let after := F32.add nan acc (F32.mul nan' smp gain)
    (F32.isZero acc = false → after = acc) ∧ (acc = 0 → after = 0) ∧ (F32.isZero acc = true → F32.isZero after = true) := by
  have hAdded : F32.mag (F32.mul nan' smp gain) = 0 :=
    F32.mag_mul_zero (by rw [hSmp]; decide) (mag_lt_infMag_of_inUnit hGain) (.inl hSmp)
  refine ⟨fun hNonzero => ?_, fun hPosZero => ?_, fun hZero => ?_⟩
  · exact F32.add_zero_right (F32.isFinite_iff.1 hAcc) (Nat.pos_of_ne_zero (of_decide_eq_false hNonzero)) hAdded
  · subst hPosZero
    have hSign : F32.signBit (0 : Word) = false := by decide
    rw [F32.add_zeros (by decide) hAdded, hSign, Bool.false_and]
    rfl
  · rw [F32.add_zeros (F32.isZero_iff.1 hZero) hAdded, F32.isZero_iff, F32.mag_zero]

/-- Adding a sample of +0 by a gain that is not −0: the sum is one with +0 (`add_posZero`). -/
theorem add_posZeroSample {nan nan' acc gain : Word} (hAcc : F32.isNaN acc = false) (hGain : F32.inUnit gain = true)
    (hSign : F32.signBit gain = false) :
    F32.add nan acc (F32.mul nan' 0 gain) = if F32.isZero acc = true then 0 else acc := by
  rw [F32.mul_posZero (mag_lt_infMag_of_inUnit hGain) hSign, F32.add_posZero (not_lt.1 (of_decide_eq_false hAcc))]

/-! ### A silent voice -/

/-- Silence with a Gate that stays Low: the position is held at +0. -/
theorem adsrStep_silence_of_low (s : State) (pos : Word) : adsrStep s .silence pos .low = (.silence, 0) := rfl

/-- The square of +0 is +0. -/
theorem envelopeSample_posZero (s : State) : envelopeSample s 0 = 0 := F32.mul_self_of_isZero (by decide)

/-- The frame sample of a voice at position +0 is a zero: the oscillator is finite and the envelope sample +0. -/
theorem mag_sample_of_position_zero {s : State} (hPhase : s.phase.toNat < 0x40C90FDB) (nan : Word) :
    F32.mag (F32.mul nan (osc s s.phase) (envelopeSample s 0)) = 0 := by
  have hone : 0x3F800000 < F32.infMag := by decide
  rw [envelopeSample_posZero]
  exact F32.mag_mul_zero ((mag_osc_le s hPhase).trans_lt hone) (by decide) (.inr (by decide))

/-- Settles O45: in both parts the frame sample is a zero; `add_zeroSample` and `add_posZeroSample` say what it adds to either sum. -/
theorem silentVoiceLeavesTheSums : Obligations.SilentVoiceLeavesTheSums := by
  refine ⟨fun s hEnv hActive hGate hPhase hPan hLeft hRight => ?silent, fun s hSmp hPan hLeft hRight => ?sample⟩
  case silent =>
    have hNext : gateNext s.gate s.active = .low := by
      rw [hActive]
      exact gateNext_of_highish_eq (by rw [highish, hGate]; rfl)
    have hStep : adsrStep s s.env s.position (gateNext s.gate s.active) = (.silence, 0) := by
      rw [hEnv, hNext, adsrStep_silence_of_low]
    have hEnvOut : envelopeSample s (adsrStep s s.env s.position (gateNext s.gate s.active)).2 = 0 := by
      rw [hStep, envelopeSample_posZero]
    have hZero : F32.mag (F32.mul (s.nan .sample) (osc s s.phase)
        (envelopeSample s (adsrStep s s.env s.position (gateNext s.gate s.active)).2)) = 0 := by
      rw [hStep]
      exact mag_sample_of_position_zero hPhase _
    refine ⟨_, rfl, hNext, congrArg Prod.fst hStep, congrArg Prod.snd hStep, hEnvOut, fun before after hMem => ?_⟩
    simp only [List.mem_cons, List.not_mem_nil, or_false, Prod.mk.injEq] at hMem
    obtain ⟨rfl, rfl⟩ | ⟨rfl, rfl⟩ := hMem
    · exact add_zeroSample hLeft hZero (inUnit_gainLeft hPan)
    · exact add_zeroSample hRight hZero (inUnit_gainRight hPan)
  case sample =>
    obtain ⟨hSign, hMag⟩ := F32.of_toNat_lt (w := s.pan) (by omega)
    have hUnit : F32.inUnit s.pan = true := F32.inUnit_iff.2 ⟨hMag ▸ hPan, .inl hSign⟩
    refine ⟨_, rfl, ?_, ?_⟩
    · change accumulateLeft s _ = _
      rw [hSmp]
      exact add_posZeroSample hLeft (inUnit_gainLeft hUnit) (signBit_gainLeft hPan)
    · change accumulateRight s _ = _
      rw [hSmp]
      exact add_posZeroSample hRight (inUnit_gainRight hUnit) (signBit_gainRight hUnit)

end Sys2Proof.Machine
end

section
/-! INVARIANTS (10_state.md section 5): the reset state has them, and every step keeps them (R34). -/

namespace Sys2Proof.Machine

/-! ### The legal state, part by part -/

/-- The six parts of a legal state. -/
structure Legal (s : State) : Prop where
  pan : s.panLegal = true
  silence : s.silencePinned = true
  gate : s.gateAgrees = true
  peak : s.peakLegal = true
  config : s.configLegal = true
  error : s.errorLegal = true

theorem legal_iff {s : State} : s.legal = true ↔ Legal s := by
  simp only [State.legal, Bool.and_eq_true, and_assoc]
  exact ⟨fun ⟨hPan, hSilence, hGate, hPeak, hConfig, hError⟩ => ⟨hPan, hSilence, hGate, hPeak, hConfig, hError⟩,
    fun ⟨hPan, hSilence, hGate, hPeak, hConfig, hError⟩ => ⟨hPan, hSilence, hGate, hPeak, hConfig, hError⟩⟩

theorem legal_reset : Legal State.reset where
  pan := by decide
  silence := by decide
  gate := by decide
  peak := by decide
  config := State.configLegal_iff.2
    ⟨RESET_SAMPLE_RATE_ne_zero, finiteParam_finite _, finiteParam_finite _, finiteParam_finite _, RESET_SUSTAIN_LEVEL_inUnit⟩
  error := by decide

/-- Settles O54: the OPEN configuration values are in their domains, and every other field is a literal. -/
theorem resetIsLegal : Obligations.ResetIsLegal := ⟨legal_iff.2 legal_reset, by decide⟩

namespace Legal

variable {s : State}

/-- Raising an error touches the error record alone (`errorLegal_raiseError`). -/
theorem raiseError {c : Cause} (hc : c ≠ .none) (w : Cmd) (h : Legal s) : Legal (s.raiseError c w) :=
  ⟨h.pan, h.silence, h.gate, h.peak, h.config, errorLegal_raiseError hc h.error⟩

/-- The stored PAN is in [0, 1] (R66). -/
theorem panLegal_writeReg {r : Reg} {v : Word} (hv : regAccepts r v = true) (h : s.panLegal = true) :
    (s.writeReg r v).panLegal = true := by
  rw [State.panLegal, State.writeReg_pan]
  split
  · subst r
    exact F32.inUnit_normz (F32.inUnit_clamp hv)
  · exact h

/-- The stored PEAK_GAIN is an accepted gain (R58). -/
theorem peakLegal_writeReg {r : Reg} {v : Word} (hv : regAccepts r v = true) (h : s.peakLegal = true) :
    (s.writeReg r v).peakLegal = true := by
  rw [State.peakLegal, State.writeReg_peakGain]
  split
  · subst r
    exact gainAccepted_normz hv
  · exact h

/-- A stored time is finite (R32). -/
theorem isFinite_stored {r time : Reg} {v old : Word} (hDomain : regAccepts time v = F32.isFinite v) (hv : regAccepts r v = true)
    (h : F32.isFinite old = true) : F32.isFinite (if r = time then F32.normz v else old) = true := by
  split
  · subst r
    exact F32.isFinite_normz (hDomain ▸ hv)
  · exact h

/-- The stored SUSTAIN_LEVEL is in [0, 1] (R32). -/
theorem inUnit_stored {r : Reg} {v old : Word} (hv : regAccepts r v = true) (h : F32.inUnit old = true) :
    F32.inUnit (if r = .sustainLevel then F32.normz v else old) = true := by
  split
  · subst r
    obtain ⟨-, hge, hle⟩ := regAccepts_sustainLevel_iff.1 hv
    exact F32.inUnit_normz (Bool.and_eq_true_iff.2 ⟨hge, hle⟩)
  · exact h

/-- Every stored configuration value is in its domain (R65). -/
theorem configLegal_writeReg {r : Reg} {v : Word} (hv : regAccepts r v = true) (h : s.configLegal = true) :
    (s.writeReg r v).configLegal = true := by
  obtain ⟨hRate, hAttack, hDecay, hRelease, hLevel⟩ := State.configLegal_iff.1 h
  rw [State.configLegal_iff]
  simp only [State.writeReg_sampleRate, State.writeReg_attackTime, State.writeReg_decayTime, State.writeReg_releaseTime,
    State.writeReg_sustainLevel]
  refine ⟨?_, isFinite_stored rfl hv hAttack, isFinite_stored rfl hv hDecay, isFinite_stored rfl hv hRelease,
    inUnit_stored hv hLevel⟩
  split
  · subst r
    exact of_decide_eq_true hv
  · exact hRate

/-- Storing an accepted value keeps every part; the voice and the error record are not written. -/
theorem writeReg {r : Reg} {v : Word} (hv : regAccepts r v = true) (h : Legal s) : Legal (s.writeReg r v) where
  pan := panLegal_writeReg hv h.pan
  silence := by simpa only [State.silencePinned, State.writeReg_env, State.writeReg_position] using h.silence
  gate := by simpa only [State.gateAgrees, State.writeReg_env, State.writeReg_gate] using h.gate
  peak := peakLegal_writeReg hv h.peak
  config := configLegal_writeReg hv h.config
  error := by
    simpa only [State.errorLegal, State.noError, State.writeReg_errinfo, State.writeReg_errValue, State.writeReg_errIllegal]
      using h.error

/-- TICK writes the voice's own registers; the envelope and the Gate it answers with agree (`adsrStep_silence`,
`adsrStep_lowish`). -/
theorem tick {t : State} (ht : execTick s = .next t) (h : Legal s) : Legal t := by
  cases ht
  exact ⟨h.pan, decide_eq_true adsrStep_silence, decide_eq_true (adsrStep_lowish (of_decide_eq_true h.gate)), h.peak, h.config,
    h.error⟩

/-- CLEAR leaves the reset state with the configuration as it was. -/
theorem clear {t : State} (ht : execClear s = .next t) (h : Legal s) : Legal t := by
  cases ht
  exact ⟨legal_reset.pan, legal_reset.silence, legal_reset.gate, legal_reset.peak, h.config, legal_reset.error⟩

/-- Every command keeps a legal state legal. -/
theorem exec {i : Instr} {t : State} (hx : exec i s = .next t) (h : Legal s) : Legal t := by
  cases execOutcome hx with
  | raised i c hc => exact h.raiseError hc _
  | nop => exact h
  | tick t ht => exact h.tick ht
  | keyon n g hg =>
    exact ⟨h.pan, decide_eq_true fun _ => rfl, decide_eq_true fun _ => rfl, gainAccepted_normz hg, h.config, h.error⟩
  | restrike g hg => exact ⟨h.pan, h.silence, h.gate, gainAccepted_normz hg, h.config, h.error⟩
  | keyoff => exact ⟨h.pan, h.silence, h.gate, h.peak, h.config, h.error⟩
  | wrreg a r v hv => exact h.writeReg hv
  | rdreg a r => exact ⟨h.pan, h.silence, h.gate, h.peak, h.config, h.error⟩
  | rdregUnmapped a =>
    obtain ⟨hPan, hSilence, hGate, hPeak, hConfig, hError⟩ := h.raiseError (c := .unmapped) (by decide) (encode (.rdreg a))
    exact ⟨hPan, hSilence, hGate, hPeak, hConfig, hError⟩
  | clear t ht => exact h.clear ht

/-- Taking up an input writes no register. -/
theorem beginInput (rest : List Input) (h : Legal s) : Legal (s.beginInput rest) :=
  ⟨h.pan, h.silence, h.gate, h.peak, h.config, h.error⟩

end Legal

/-- Settles O55: a command keeps each part (`Legal.exec`), an illegal word raises an error, reset leaves the reset state, and a taken
response touches no register. -/
theorem everyStepKeepsTheStateLegal : Obligations.EveryStepKeepsTheStateLegal := by
  intro s t hs h
  rw [legal_iff] at hs ⊢
  obtain ⟨-, rfl⟩ | ⟨w, rest, i, -, -, hx⟩ | ⟨w, rest, c, -, hd, rfl⟩ | ⟨rest, -, rfl⟩ | ⟨rest, -, rfl⟩ := step_cases h
  · exact hs
  · exact (hs.beginInput rest).exec hx
  · exact (hs.beginInput rest).raiseError (illegal_cause_ne_none hd) w
  · obtain ⟨hPan, hSilence, hGate, hPeak, hConfig, hError⟩ := legal_reset
    exact ⟨hPan, hSilence, hGate, hPeak, hConfig, hError⟩
  · exact ⟨hs.pan, hs.silence, hs.gate, hs.peak, hs.config, hs.error⟩

/-! ### The wrapped phase (R34 (b)) -/

/-- What a command can do to PHASE: TICK updates it, KEYON and CLEAR put it at +0, and the others leave it. -/
theorem exec_phase {i : Instr} {s t : State} (h : exec i s = .next t) :
    t.phase = s.phase ∨ t.phase = 0 ∨ t.phase = phaseNext s := by
  cases execOutcome h with
  | tick t ht => cases ht; exact .inr (.inr rfl)
  | keyon => exact .inr (.inl rfl)
  | clear t ht => cases ht; exact .inr (.inl rfl)
  | wrreg a r v => exact .inl (State.writeReg_phase _ _ _)
  | raised | nop | restrike | keyoff | rdreg | rdregUnmapped => exact .inl rfl

/-- The phase update of a command sees the PHASE_INC of the state before it is taken up: that is no NaN, so the draw number does not
matter (`phaseInc_congr`). -/
theorem phaseNext_beginInput_lt {s : State} (hPhase : s.phase.toNat < 0x40C90FDB) (hRate : s.sampleRate ≠ 0)
    (hInc : F32.isFinite s.phaseInc = true) (rest : List Input) : (phaseNext (s.beginInput rest)).toNat < 0x40C90FDB := by
  have hSame : s.phaseInc = (s.beginInput rest).phaseInc := phaseInc_congr hRate rfl rfl
  exact (phaseWrapsExactly (s.beginInput rest) hPhase hRate (hSame ▸ hInc)).2.2

/-- Settles O56: PHASE is left, put at +0, or updated to a wrapped phase (`exec_phase`, `phaseNext_beginInput_lt`). -/
theorem everyStepKeepsThePhaseWrapped : Obligations.EveryStepKeepsThePhaseWrapped := by
  intro s t hs hRate hInc h
  have hPhase : s.phase.toNat < 0x40C90FDB := of_decide_eq_true hs
  suffices ht : t.phase.toNat < 0x40C90FDB from decide_eq_true ht
  obtain ⟨-, rfl⟩ | ⟨w, rest, i, -, -, hx⟩ | ⟨w, rest, c, -, -, rfl⟩ | ⟨rest, -, rfl⟩ | ⟨rest, -, rfl⟩ := step_cases h
  · exact hPhase
  · obtain hSame | hZero | hNext := exec_phase hx
    · exact hSame ▸ hPhase
    · rw [hZero]
      decide
    · rw [hNext]
      exact phaseNext_beginInput_lt hPhase hRate hInc rest
  · exact hPhase
  · exact of_decide_eq_true resetIsLegal.2
  · exact hPhase

end Sys2Proof.Machine
end

section
/-! SYSTEMS (20_memory.md R47, 46_host_contract.md R102): a command reaches one instance, and a render invocation with no live voice. -/

namespace Sys2Proof.Machine

/-- A command that is issued finds its instance. -/
theorem getElem?_of_issue {y z : System} {k : Nat} {i : Instr} (h : y.issue k i = .ok z) :
    ∃ s, y.insts[k]? = some s ∧ z = { y with insts := y.insts.set k (s.executes (encode i)) } := by
  cases hk : y.insts[k]? with
  | none => simp [System.issue, hk] at h
  | some s =>
    rw [issue_of_getElem? hk] at h
    exact ⟨s, rfl, (Except.ok.inj h).symm⟩

/-- Settles O57: the command replaces the entry of its own instance (`List.set`). -/
theorem instancesShareNothing : Obligations.InstancesShareNothing := by
  intro y z k i h
  obtain ⟨s, -, rfl⟩ := getElem?_of_issue h
  exact ⟨rfl, List.length_set, fun j hj => List.getElem?_set_ne hj.symm⟩

/-! ### A render invocation with nothing to render -/

theorem renderVoices_nil (out : List Word) (y : System) : renderVoices [] out y = .ok (out, y) := rfl

theorem cleanUp_of_no_voices {y : System} (h : y.host.live = []) : cleanUp y = .ok y := by
  have hKept : cleanUpVoices y.host.live y = .ok ([], y) := by rw [h]; rfl
  rw [cleanUp, hKept, ← h]
  rfl

theorem publish_of_uiOff {y : System} (h : y.host.uiOn = false) : publish y = .ok (none, y) := by
  rw [publish, h]
  rfl

/-- Settles O60: an empty queue drains to the same system, no voice adds to the buffer, and nothing is retired or published. -/
theorem renderingNoVoicesGivesSilence : Obligations.RenderingNoVoicesGivesSilence := by
  intro y length hLive hQueue hUi
  refine ⟨⟨List.replicate length 0, none, { y with host := { y.host with queue := [], renders := y.host.renders + 1 } }⟩, ?_,
    rfl, rfl, hLive, rfl⟩
  simp only [renderBuffer, hQueue, drain, hLive, renderVoices_nil, bind, Except.bind, cleanUp_of_no_voices, publish_of_uiOff, hUi]

end Sys2Proof.Machine
end
